-- ==== Sys2Proof/Word.lean ====
section
/-! DEFINITION. The word types of the CORE: bytes, 16-bit words, and the fields a 16-bit instruction word
is cut into (00_scope.md R7, 30_encoding.md R91). -/

namespace Sys2Proof

/-- A 4-bit field of an instruction word: a register index or a row count (R7, R92). -/
abbrev Nibble := BitVec 4

/-- An 8-bit value: a general register, a timer, a byte of memory, the field kk (R7, R21, R28, R29). -/
abbrev Byte := BitVec 8

/-- A 12-bit address field, the field nnn (R7, R92). -/
abbrev Addr12 := BitVec 12

/-- A 16-bit value: an instruction word, PC, I, a stack slot (R24, R25, R26, R90). -/
abbrev Word := BitVec 16

end Sys2Proof
end

