-- ==== Sys2Proof/Syntax.lean ====
section
/-! DEFINITION. The instruction set: one constructor per row of spec/opcode_table.json, in the table's
order (30_encoding.md R94). Operands are the fields the row names: nnn, kk, n, and the register indices
x and y (R92). -/

namespace Sys2Proof

/-- The 35 instruction tags of 30_encoding.md R93 and R94. A word that no row matches is no instruction
(`Decoded.invalid` in Decode.lean). -/
inductive Instr where
  | cls                              -- 00E0  CLS
  | ret                              -- 00EE  RET
  | sys (nnn : Addr12)               -- 0nnn  SYS
  | jp (nnn : Addr12)                -- 1nnn  JP
  | call (nnn : Addr12)              -- 2nnn  CALL
  | seImm (x : Nibble) (kk : Byte)   -- 3xkk  SE_IMM
  | sneImm (x : Nibble) (kk : Byte)  -- 4xkk  SNE_IMM
  | seReg (x y : Nibble)             -- 5xy0  SE_REG
  | ldImm (x : Nibble) (kk : Byte)   -- 6xkk  LD_IMM
  | addImm (x : Nibble) (kk : Byte)  -- 7xkk  ADD_IMM
  | ldReg (x y : Nibble)             -- 8xy0  LD_REG
  | orReg (x y : Nibble)             -- 8xy1  OR
  | andReg (x y : Nibble)            -- 8xy2  AND
  | xorReg (x y : Nibble)            -- 8xy3  XOR
  | addReg (x y : Nibble)            -- 8xy4  ADD_REG
  | sub (x y : Nibble)               -- 8xy5  SUB
  | shr (x y : Nibble)               -- 8xy6  SHR
  | subn (x y : Nibble)              -- 8xy7  SUBN
  | shl (x y : Nibble)               -- 8xyE  SHL
  | sneReg (x y : Nibble)            -- 9xy0  SNE_REG
  | ldI (nnn : Addr12)               -- Annn  LD_I
  | jpV0 (nnn : Addr12)              -- Bnnn  JP_V0
  | rnd (x : Nibble) (kk : Byte)     -- Cxkk  RND
  | drw (x y : Nibble) (n : Nibble)  -- Dxyn  DRW
  | skp (x : Nibble)                 -- Ex9E  SKP
  | sknp (x : Nibble)                -- ExA1  SKNP
  | ldVxDt (x : Nibble)              -- Fx07  LD_VX_DT
  | ldVxK (x : Nibble)               -- Fx0A  LD_VX_K
  | ldDtVx (x : Nibble)              -- Fx15  LD_DT_VX
  | ldStVx (x : Nibble)              -- Fx18  LD_ST_VX
  | addIVx (x : Nibble)              -- Fx1E  ADD_I_VX
  | ldFVx (x : Nibble)               -- Fx29  LD_F_VX
  | ldBVx (x : Nibble)               -- Fx33  LD_B_VX
  | ldMemVx (x : Nibble)             -- Fx55  LD_MEM_VX
  | ldVxMem (x : Nibble)             -- Fx65  LD_VX_MEM
  deriving DecidableEq, Repr

end Sys2Proof
end

