-- ==== Sys2Proof/Decode.lean ====
section
/-! DEFINITION. The opcode decoder (30_encoding.md R93), the bytes it reads (20_memory.md R64), the
encoder of a well-formed instruction's word (30_encoding.md R91, R94), and the opcode map as masks and
matches (R94). -/

namespace Sys2Proof

/-- The groups of INVALID words, each by name (30_encoding.md R95). -/
inductive InvalidGroup where
  | group5   -- 5xyN with N != 0
  | group8   -- 8xyN with N in 8, 9, A, B, C, D, F
  | group9   -- 9xyN with N != 0
  | groupE   -- ExKK with KK not 9E or A1
  | groupF   -- FxKK with KK none of the nine sub-operations
  deriving DecidableEq, Repr

/-- What the decoder makes of a word: an instruction, or INVALID with the group the word falls in. -/
inductive Decoded where
  | instr (i : Instr)
  | invalid (g : InvalidGroup)
  deriving DecidableEq, Repr

/-- Whether the decoder calls the word INVALID (30_encoding.md R95). -/
def Decoded.isInvalid : Decoded → Bool
  | .instr _ => false
  | .invalid _ => true

/-- The field `op = w[15:12]` (R7). -/
def fieldOp (w : Word) : Nibble := w.extractLsb' 12 4

/-- The field `x = w[11:8]` (R7). -/
def fieldX (w : Word) : Nibble := w.extractLsb' 8 4

/-- The field `y = w[7:4]` (R7). -/
def fieldY (w : Word) : Nibble := w.extractLsb' 4 4

/-- The field `n = w[3:0]` (R7). -/
def fieldN (w : Word) : Nibble := w.extractLsb' 0 4

/-- The field `kk = w[7:0]` (R7). -/
def fieldKK (w : Word) : Byte := w.extractLsb' 0 8

/-- The field `nnn = w[11:0]` (R7). -/
def fieldNNN (w : Word) : Addr12 := w.extractLsb' 0 12

/-- R93, the arm `0x0`: CLS and RET are single words, every other word is SYS. -/
def decode0 (nnn : Addr12) : Decoded :=
  if nnn = 0x0E0#12 then .instr .cls
  else if nnn = 0x0EE#12 then .instr .ret
  else .instr (.sys nnn)

/-- R93, the arm `0x8`: the register-register group, by its low nibble. -/
def decode8 (x y n : Nibble) : Decoded :=
  match n with
  | 0x0#4 => .instr (.ldReg x y)
  | 0x1#4 => .instr (.orReg x y)
  | 0x2#4 => .instr (.andReg x y)
  | 0x3#4 => .instr (.xorReg x y)
  | 0x4#4 => .instr (.addReg x y)
  | 0x5#4 => .instr (.sub x y)
  | 0x6#4 => .instr (.shr x y)
  | 0x7#4 => .instr (.subn x y)
  | 0xE#4 => .instr (.shl x y)
  | _ => .invalid .group8

/-- R93, the arm `0xE`: the key skips, by their low byte. -/
def decodeE (x : Nibble) (kk : Byte) : Decoded :=
  match kk with
  | 0x9E#8 => .instr (.skp x)
  | 0xA1#8 => .instr (.sknp x)
  | _ => .invalid .groupE

/-- R93, the arm `0xF`: timers, keypad, index and memory transfer, by their low byte. -/
def decodeF (x : Nibble) (kk : Byte) : Decoded :=
  match kk with
  | 0x07#8 => .instr (.ldVxDt x)
  | 0x0A#8 => .instr (.ldVxK x)
  | 0x15#8 => .instr (.ldDtVx x)
  | 0x18#8 => .instr (.ldStVx x)
  | 0x1E#8 => .instr (.addIVx x)
  | 0x29#8 => .instr (.ldFVx x)
  | 0x33#8 => .instr (.ldBVx x)
  | 0x55#8 => .instr (.ldMemVx x)
  | 0x65#8 => .instr (.ldVxMem x)
  | _ => .invalid .groupF

/-- The opcode decoder: total and stateless, reading nothing but the word (30_encoding.md R93, R97). The
last arm is `op = 0xF`, the sixteenth value. -/
def decode (w : Word) : Decoded :=
  match fieldOp w with
  | 0x0#4 => decode0 (fieldNNN w)
  | 0x1#4 => .instr (.jp (fieldNNN w))
  | 0x2#4 => .instr (.call (fieldNNN w))
  | 0x3#4 => .instr (.seImm (fieldX w) (fieldKK w))
  | 0x4#4 => .instr (.sneImm (fieldX w) (fieldKK w))
  | 0x5#4 => if fieldN w = 0x0#4 then .instr (.seReg (fieldX w) (fieldY w)) else .invalid .group5
  | 0x6#4 => .instr (.ldImm (fieldX w) (fieldKK w))
  | 0x7#4 => .instr (.addImm (fieldX w) (fieldKK w))
  | 0x8#4 => decode8 (fieldX w) (fieldY w) (fieldN w)
  | 0x9#4 => if fieldN w = 0x0#4 then .instr (.sneReg (fieldX w) (fieldY w)) else .invalid .group9
  | 0xA#4 => .instr (.ldI (fieldNNN w))
  | 0xB#4 => .instr (.jpV0 (fieldNNN w))
  | 0xC#4 => .instr (.rnd (fieldX w) (fieldKK w))
  | 0xD#4 => .instr (.drw (fieldX w) (fieldY w) (fieldN w))
  | 0xE#4 => decodeE (fieldX w) (fieldKK w)
  | _ => decodeF (fieldX w) (fieldKK w)

/-- The instruction word of two bytes, the byte at the lower address in bits 15:8 (20_memory.md R64). -/
def wordOfBytes (hi lo : Byte) : Word := hi ++ lo

/-- The byte of a word that is stored at the lower address (20_memory.md R64). -/
def highByte (w : Word) : Byte := w.extractLsb' 8 8

/-- The byte of a word that is stored at the higher address (20_memory.md R64). -/
def lowByte (w : Word) : Byte := w.extractLsb' 0 8

/-- What the decoder makes of a run of bytes: a decoded word and the bytes after it, or too few bytes for
one (every instruction has 2 bytes, 30_encoding.md R90). -/
inductive DecodedBytes where
  | word (d : Decoded) (rest : List Byte)
  | tooShort
  deriving DecidableEq, Repr

/-- Decoding a run of bytes, total on any bytes (30_encoding.md R90, 20_memory.md R64). -/
def decodeBytes : List Byte → DecodedBytes
  | hi :: lo :: rest => .word (decode (wordOfBytes hi lo)) rest
  | [_] => .tooShort
  | [] => .tooShort

/-- The bytes of a table row's word in the order the hardware stores them. The row's word is one 16-bit
word, its bit 0 the word's least significant bit; bits at or above nbits are 0. -/
def tableWordBytes (nbits w : Nat) : List Byte :=
  [highByte (BitVec.ofNat 16 (w % 2 ^ nbits)), lowByte (BitVec.ofNat 16 (w % 2 ^ nbits))]

/-- The instruction the decoder reads from a word numbered as spec/opcode_table.json numbers it. -/
def decodeTableWord (nbits w : Nat) : Option Instr :=
  match decodeBytes (tableWordBytes nbits w) with
  | .word (.instr i) _ => some i
  | .word (.invalid _) _ => none
  | .tooShort => none

/-- Layout A: `op`, then the 12-bit address (30_encoding.md R91). -/
def layoutA (op : Nibble) (nnn : Addr12) : Word := op ++ nnn

/-- Layout XK: `op`, a register, a byte (30_encoding.md R91). -/
def layoutXK (op x : Nibble) (kk : Byte) : Word := op ++ x ++ kk

/-- Layouts XY and XYN: `op`, two registers, a nibble (30_encoding.md R91). -/
def layoutXYN (op x y n : Nibble) : Word := op ++ x ++ y ++ n

/-- The word of an instruction (30_encoding.md R91, R94). On well-formed instructions it is the word the
decoder reads it from. -/
def encode : Instr → Word
  | .cls => 0x00E0#16
  | .ret => 0x00EE#16
  | .sys nnn => layoutA 0x0#4 nnn
  | .jp nnn => layoutA 0x1#4 nnn
  | .call nnn => layoutA 0x2#4 nnn
  | .seImm x kk => layoutXK 0x3#4 x kk
  | .sneImm x kk => layoutXK 0x4#4 x kk
  | .seReg x y => layoutXYN 0x5#4 x y 0x0#4
  | .ldImm x kk => layoutXK 0x6#4 x kk
  | .addImm x kk => layoutXK 0x7#4 x kk
  | .ldReg x y => layoutXYN 0x8#4 x y 0x0#4
  | .orReg x y => layoutXYN 0x8#4 x y 0x1#4
  | .andReg x y => layoutXYN 0x8#4 x y 0x2#4
  | .xorReg x y => layoutXYN 0x8#4 x y 0x3#4
  | .addReg x y => layoutXYN 0x8#4 x y 0x4#4
  | .sub x y => layoutXYN 0x8#4 x y 0x5#4
  | .shr x y => layoutXYN 0x8#4 x y 0x6#4
  | .subn x y => layoutXYN 0x8#4 x y 0x7#4
  | .shl x y => layoutXYN 0x8#4 x y 0xE#4
  | .sneReg x y => layoutXYN 0x9#4 x y 0x0#4
  | .ldI nnn => layoutA 0xA#4 nnn
  | .jpV0 nnn => layoutA 0xB#4 nnn
  | .rnd x kk => layoutXK 0xC#4 x kk
  | .drw x y n => layoutXYN 0xD#4 x y n
  | .skp x => layoutXK 0xE#4 x 0x9E#8
  | .sknp x => layoutXK 0xE#4 x 0xA1#8
  | .ldVxDt x => layoutXK 0xF#4 x 0x07#8
  | .ldVxK x => layoutXK 0xF#4 x 0x0A#8
  | .ldDtVx x => layoutXK 0xF#4 x 0x15#8
  | .ldStVx x => layoutXK 0xF#4 x 0x18#8
  | .addIVx x => layoutXK 0xF#4 x 0x1E#8
  | .ldFVx x => layoutXK 0xF#4 x 0x29#8
  | .ldBVx x => layoutXK 0xF#4 x 0x33#8
  | .ldMemVx x => layoutXK 0xF#4 x 0x55#8
  | .ldVxMem x => layoutXK 0xF#4 x 0x65#8

/-- A row of the opcode map: a word matches it when `(w & mask) == pattern` (30_encoding.md R94). -/
structure OpcodeRow where
  pattern : Word
  mask : Word
  deriving DecidableEq, Repr

/-- Whether a word matches a row (R94). -/
def OpcodeRow.matchesWord (r : OpcodeRow) (w : Word) : Bool := w &&& r.mask == r.pattern

/-- The opcode map's row of each instruction, match and mask (30_encoding.md R94). -/
def Instr.row : Instr → OpcodeRow
  | .cls => ⟨0x00E0#16, 0xFFFF#16⟩
  | .ret => ⟨0x00EE#16, 0xFFFF#16⟩
  | .sys _ => ⟨0x0000#16, 0xF000#16⟩
  | .jp _ => ⟨0x1000#16, 0xF000#16⟩
  | .call _ => ⟨0x2000#16, 0xF000#16⟩
  | .seImm _ _ => ⟨0x3000#16, 0xF000#16⟩
  | .sneImm _ _ => ⟨0x4000#16, 0xF000#16⟩
  | .seReg _ _ => ⟨0x5000#16, 0xF00F#16⟩
  | .ldImm _ _ => ⟨0x6000#16, 0xF000#16⟩
  | .addImm _ _ => ⟨0x7000#16, 0xF000#16⟩
  | .ldReg _ _ => ⟨0x8000#16, 0xF00F#16⟩
  | .orReg _ _ => ⟨0x8001#16, 0xF00F#16⟩
  | .andReg _ _ => ⟨0x8002#16, 0xF00F#16⟩
  | .xorReg _ _ => ⟨0x8003#16, 0xF00F#16⟩
  | .addReg _ _ => ⟨0x8004#16, 0xF00F#16⟩
  | .sub _ _ => ⟨0x8005#16, 0xF00F#16⟩
  | .shr _ _ => ⟨0x8006#16, 0xF00F#16⟩
  | .subn _ _ => ⟨0x8007#16, 0xF00F#16⟩
  | .shl _ _ => ⟨0x800E#16, 0xF00F#16⟩
  | .sneReg _ _ => ⟨0x9000#16, 0xF00F#16⟩
  | .ldI _ => ⟨0xA000#16, 0xF000#16⟩
  | .jpV0 _ => ⟨0xB000#16, 0xF000#16⟩
  | .rnd _ _ => ⟨0xC000#16, 0xF000#16⟩
  | .drw _ _ _ => ⟨0xD000#16, 0xF000#16⟩
  | .skp _ => ⟨0xE09E#16, 0xF0FF#16⟩
  | .sknp _ => ⟨0xE0A1#16, 0xF0FF#16⟩
  | .ldVxDt _ => ⟨0xF007#16, 0xF0FF#16⟩
  | .ldVxK _ => ⟨0xF00A#16, 0xF0FF#16⟩
  | .ldDtVx _ => ⟨0xF015#16, 0xF0FF#16⟩
  | .ldStVx _ => ⟨0xF018#16, 0xF0FF#16⟩
  | .addIVx _ => ⟨0xF01E#16, 0xF0FF#16⟩
  | .ldFVx _ => ⟨0xF029#16, 0xF0FF#16⟩
  | .ldBVx _ => ⟨0xF033#16, 0xF0FF#16⟩
  | .ldMemVx _ => ⟨0xF055#16, 0xF0FF#16⟩
  | .ldVxMem _ => ⟨0xF065#16, 0xF0FF#16⟩

/-- The 35 rows of the opcode map in the table's order (30_encoding.md R94). -/
def opcodeMap : List OpcodeRow :=
  [⟨0x00E0#16, 0xFFFF#16⟩, ⟨0x00EE#16, 0xFFFF#16⟩, ⟨0x0000#16, 0xF000#16⟩, ⟨0x1000#16, 0xF000#16⟩,
   ⟨0x2000#16, 0xF000#16⟩, ⟨0x3000#16, 0xF000#16⟩, ⟨0x4000#16, 0xF000#16⟩, ⟨0x5000#16, 0xF00F#16⟩,
   ⟨0x6000#16, 0xF000#16⟩, ⟨0x7000#16, 0xF000#16⟩] ++
  [⟨0x8000#16, 0xF00F#16⟩, ⟨0x8001#16, 0xF00F#16⟩, ⟨0x8002#16, 0xF00F#16⟩, ⟨0x8003#16, 0xF00F#16⟩,
   ⟨0x8004#16, 0xF00F#16⟩, ⟨0x8005#16, 0xF00F#16⟩, ⟨0x8006#16, 0xF00F#16⟩, ⟨0x8007#16, 0xF00F#16⟩,
   ⟨0x800E#16, 0xF00F#16⟩, ⟨0x9000#16, 0xF00F#16⟩, ⟨0xA000#16, 0xF000#16⟩, ⟨0xB000#16, 0xF000#16⟩,
   ⟨0xC000#16, 0xF000#16⟩, ⟨0xD000#16, 0xF000#16⟩] ++
  [⟨0xE09E#16, 0xF0FF#16⟩, ⟨0xE0A1#16, 0xF0FF#16⟩, ⟨0xF007#16, 0xF0FF#16⟩, ⟨0xF00A#16, 0xF0FF#16⟩,
   ⟨0xF015#16, 0xF0FF#16⟩, ⟨0xF018#16, 0xF0FF#16⟩, ⟨0xF01E#16, 0xF0FF#16⟩, ⟨0xF029#16, 0xF0FF#16⟩,
   ⟨0xF033#16, 0xF0FF#16⟩, ⟨0xF055#16, 0xF0FF#16⟩, ⟨0xF065#16, 0xF0FF#16⟩]

end Sys2Proof
end

