-- ==== Sys2Proof/Config.lean ====
section
/-! DEFINITION. What the hardware fixes (00_scope.md R5), the policies it leaves to the configuration
(00_scope.md R6), and the free value: the injected random byte (43_alu.md R203). -/

namespace Sys2Proof

/-- MEM_SIZE: 4096 bytes (R5). -/
abbrev Config.memSize : Nat := 4096

/-- The greatest pc from which two bytes can be fetched, `memory.len() - 2` (10_state.md R24). -/
abbrev Config.lastPc : Nat := 0xFFE

/-- PROGRAM_START: 0x200, also the reset pc (R5). -/
abbrev Config.programStart : Nat := 0x200

/-- FONT_BASE and the end of the font: 16 glyphs of 5 bytes at 0x000 (R5). -/
abbrev Config.fontBytes : Nat := 80

/-- The longest program that fits above PROGRAM_START: 3584 bytes (70_reset_and_hazards.md R341). -/
abbrev Config.maxProgram : Nat := 3584

/-- CPU_HZ, default 700 (R6). No rule of the model depends on it (R356). -/
def Config.cpuHz : Nat := 700

/-- TIMER_HZ: 60 (R5). No rule of the model depends on it (R356). -/
def Config.timerHz : Nat := 60

/-- INVALID_OPCODE_POLICY (R6, 40_engine.md R127). -/
inductive InvalidOpcodePolicy where
  | abort
  | skip
  deriving DecidableEq, Repr

/-- SHIFT_SOURCE (R6, 43_alu.md R202). -/
inductive ShiftSource where
  | y
  | x
  deriving DecidableEq, Repr

/-- VF_WRITE_ORDER (R6, 43_alu.md R204). -/
inductive VfWriteOrder where
  | tableOrder
  | flagLast
  deriving DecidableEq, Repr

/-- The policies a model takes as arguments (R6, 10_state.md R39). They travel in `State.params`, which
no step writes, so that a statement about every state holds for every policy (assumption 1). -/
structure Params where
  invalidOpcode : InvalidOpcodePolicy
  shiftSource : ShiftSource
  vfWriteOrder : VfWriteOrder
  deriving DecidableEq, Repr

/-- RAND: the byte of the k-th draw (R6, R203). A free value: it has no body, so nothing can be proved of
its values (DESIGN CHOICE in form, assumption 3). -/
opaque Config.randByte : Nat → Byte

end Sys2Proof
end

