-- ==== Sys2Proof/Machine/Params.lean ====
section
/-! DEFINITION. The default policies (00_scope.md R6) and the default FONT (10_state.md R41). -/

namespace Sys2Proof.Machine

/-- The defaults of R6: INVALID_OPCODE_POLICY = ABORT, SHIFT_SOURCE = Y, VF_WRITE_ORDER = TABLE_ORDER. -/
def defaultParams : Params :=
  { invalidOpcode := .abort, shiftSource := .y, vfWriteOrder := .tableOrder }

/-- A font: 16 glyphs of 5 bytes (00_scope.md R5). -/
abbrev Font := Vector (Vector Byte 5) 16

/-- The default FONT (R41), glyphs 0 to F. The spec takes it from general knowledge: a claim that
depends on these bytes depends on this default (PRESUMED, assumption 6). -/
def defaultFont : Font :=
  #v[#v[0xF0#8, 0x90#8, 0x90#8, 0x90#8, 0xF0#8],
     #v[0x20#8, 0x60#8, 0x20#8, 0x20#8, 0x70#8],
     #v[0xF0#8, 0x10#8, 0xF0#8, 0x80#8, 0xF0#8],
     #v[0xF0#8, 0x10#8, 0xF0#8, 0x10#8, 0xF0#8],
     #v[0x90#8, 0x90#8, 0xF0#8, 0x10#8, 0x10#8],
     #v[0xF0#8, 0x80#8, 0xF0#8, 0x10#8, 0xF0#8],
     #v[0xF0#8, 0x80#8, 0xF0#8, 0x90#8, 0xF0#8],
     #v[0xF0#8, 0x10#8, 0x20#8, 0x40#8, 0x40#8],
     #v[0xF0#8, 0x90#8, 0xF0#8, 0x90#8, 0xF0#8],
     #v[0xF0#8, 0x90#8, 0xF0#8, 0x10#8, 0xF0#8],
     #v[0xF0#8, 0x90#8, 0xF0#8, 0x90#8, 0x90#8],
     #v[0xE0#8, 0x90#8, 0xE0#8, 0x90#8, 0xE0#8],
     #v[0xF0#8, 0x80#8, 0x80#8, 0x80#8, 0xF0#8],
     #v[0xE0#8, 0x90#8, 0x90#8, 0x90#8, 0xE0#8],
     #v[0xF0#8, 0x80#8, 0xF0#8, 0x80#8, 0xF0#8],
     #v[0xF0#8, 0x80#8, 0xF0#8, 0x80#8, 0x80#8]]

/-- The 80 bytes of a font in address order: glyph d at 5*d (00_scope.md R5). -/
def fontBytes (f : Font) : List Byte := (f.toList.map Vector.toList).flatten

end Sys2Proof.Machine
end

