-- ==== Sys2Proof/Machine/State.lean ====
section
/-! DEFINITION. The state of the CORE as plain data (10_state.md R20), the state after reset (10_state.md
R40), and the reasons a step can stop. -/

namespace Sys2Proof.Machine

/-- Memory: (address, byte) pairs in canonical form, strictly rising addresses and no entry equal to what
an unlisted address reads as (Machine/Memory.lean). -/
abbrev Memory := List Host.Cell

/-- The framebuffer: 32 rows of 64 pixels; column c of a row is bit c of it (10_state.md R30). -/
abbrev Display := Vector (BitVec 64) 32

/-- The fault kinds with the info field each records (60_exceptions.md R300, R306). -/
inductive FaultKind where
  | stackOverflow
  | stackUnderflow
  | memOutOfBounds (addr : Nat)
  | pcOutOfRange (pcNext : Nat)
  | keyIndexOutOfRange (key : Byte)
  | invalidOpcode
  deriving DecidableEq, Repr

/-- The fault record of the STATUS output (60_exceptions.md R306). The word is absent only for a fault at
fetch, where no word was read (DESIGN CHOICE, assumption 4). -/
structure FaultRecord where
  kind : FaultKind
  pc : Word
  word : Option Word
  deriving DecidableEq, Repr

/-- RUN (10_state.md R36). -/
inductive RunState where
  | running
  | halted (r : FaultRecord)
  deriving DecidableEq, Repr

/-- What can happen to the CORE, one at a time: an instruction-clock tick, a timer-clock tick, the host's
keypad latch, the host's QUIT (60_exceptions.md R312, R313; 10_state.md R38). -/
inductive Event where
  | step
  | tick
  | latch (keys : BitVec 16)
  | quit
  deriving DecidableEq, Repr

/-- The state of the CORE. The fields up to `run` are the components of 10_state.md R20, all of them; the
last four are the model's own. -/
structure State where
  /-- V0..VF (R21). -/
  v : Vector Byte 16
  /-- The index register I (R25). -/
  i : Word
  /-- PC (R24). -/
  pc : Word
  /-- STACK[0..15] (R26). -/
  stack : Vector Word 16
  /-- SP, 0..16: how many slots are in use (R26). -/
  sp : Fin 17
  /-- The delay timer (R28). -/
  dt : Byte
  /-- The sound timer (R28). -/
  st : Byte
  /-- MEM (R29). -/
  mem : Memory
  /-- DISP (R30). -/
  disp : Display
  /-- KEYS, bit k the flag of key k, 1 when pressed (R32). -/
  keys : BitVec 16
  /-- REDRAW (R31). -/
  redraw : Bool
  /-- LASTKEYS (R35). -/
  lastKeys : BitVec 16
  /-- RUN (R36). -/
  run : RunState
  /-- The model's own: the policies of 00_scope.md R6, which no step writes (assumption 1). -/
  params : Params
  /-- The model's own: how many random bytes have been drawn, the index of the next one (assumption 3). -/
  draws : Nat
  /-- The model's own: the coming events, first the next; when there is none the next event is a STEP
  (assumption 2). -/
  schedule : List Event
  /-- The model's own: how many times REDRAW_SIGNAL has been raised (R311, assumption 9). -/
  redrawSignals : Nat
  deriving DecidableEq, Repr

/-- Why the machine stops. A fault of the spec (60_exceptions.md R300) is no reason here: it is taken, and
its effect is the next state with RUN = HALTED. -/
inductive Fault where
  /-- Raised by `step` when RUN = HALTED: no event takes place any more (60_exceptions.md R305). The spec's
  own stuck state (93_implementation_defined.md U19). Safe. -/
  | halted
  /-- Raised by `step` when the next event is the host's QUIT: the run has ended, the state is the final
  one and RUN stays RUNNING (60_exceptions.md R313). Safe. -/
  | runEnded
  deriving DecidableEq, Repr

/-- Why an instruction has no meaning. -/
inductive Refusal where
  /-- Raised by `exec` for an instruction without a meaning. No arm raises it: all 35 have one. Safe. -/
  | notModelled (mnemonic : String)
  deriving DecidableEq, Repr

/-- The state after reset with the default FONT and an empty program (10_state.md R40, R41;
70_reset_and_hazards.md R340, R341). Memory lists nothing: an unlisted address reads as its reset
contents. -/
def State.reset : State :=
  { v := Vector.replicate 16 0#8
    i := 0#16
    pc := 0x200#16
    stack := Vector.replicate 16 0#16
    sp := 0
    dt := 0#8
    st := 0#8
    mem := []
    disp := Vector.replicate 32 0#64
    keys := 0#16
    redraw := false
    lastKeys := 0#16
    run := .running
    params := defaultParams
    draws := 0
    schedule := []
    redrawSignals := 0 }

end Sys2Proof.Machine
end

