-- ==== Sys2Proof/Machine/Memory.lean ====
section
/-! DEFINITION. Memory: 4096 bytes at 0x000..0xFFF (20_memory.md R60), read and written one byte at a time
(R65), in one canonical form. -/

namespace Sys2Proof.Machine

/-- The byte a font puts at an address, 0 outside 0x000..0x04F: glyph d at 5*d (00_scope.md R5). -/
def fontByte (f : Font) (a : Nat) : Byte :=
  if h : a < 80 then (f[a / 5]'(by omega))[a % 5]'(by omega) else 0#8

/-- What an unlisted address reads as: its contents after reset with the default FONT and an empty program
(10_state.md R40, 70_reset_and_hazards.md R341). -/
def Memory.unlisted (a : Nat) : Byte := fontByte defaultFont a

/-- Reading the byte at an address of memory. The bounds check of R63 is made by the operations that form
addresses (Machine/Ops.lean). -/
def Memory.read : Memory → Nat → Byte
  | [], a => Memory.unlisted a
  | (c, d) :: m, a => if a = c then d else Memory.read m a

/-- The entry a byte needs: none when the address reads so anyway. -/
def Memory.entry (a : Nat) (b : Byte) : Memory := if b = Memory.unlisted a then [] else [(a, b)]

/-- Putting a byte in its place among rising addresses. -/
def Memory.put : Memory → Nat → Byte → Memory
  | [], a, b => Memory.entry a b
  | (c, d) :: m, a, b =>
    if a < c then Memory.entry a b ++ (c, d) :: m
    else if a = c then Memory.entry a b ++ m
    else (c, d) :: Memory.put m a b

/-- Writing a byte. An address above 0xFFF is no address: nothing is written (20_memory.md R63). -/
def Memory.write (m : Memory) (a : Nat) (b : Byte) : Memory :=
  if a < Config.memSize then Memory.put m a b else m

/-- Writing bytes at consecutive addresses from a, the first byte first. -/
def Memory.writeBlock (m : Memory) (a : Nat) : List Byte → Memory
  | [] => m
  | b :: bs => Memory.writeBlock (Memory.write m a b) (a + 1) bs

/-- The canonical form: every entry lies in memory and differs from what its address reads as unlisted,
and the addresses rise strictly. -/
def Memory.wf (m : Memory) : Bool :=
  m.all (fun c => decide (c.1 < Config.memSize) && c.2 != Memory.unlisted c.1) &&
    decide (m.Pairwise fun c d => c.1 < d.1)

end Sys2Proof.Machine
end

