-- ==== Sys2Proof/Machine/Operands.lean ====
section
/-! DEFINITION. The operand forms: general registers, immediates, the source of a shift, addresses from I,
keys (30_encoding.md R92). -/

namespace Sys2Proof.Machine

/-- Reading the general register an index names, `V[x]` (00_scope.md R8, 10_state.md R21). -/
def State.reg (s : State) (x : Nibble) : Byte := s.v[x.toNat]'x.isLt

/-- Writing the general register an index names (00_scope.md R8). -/
def State.setReg (s : State) (x : Nibble) (b : Byte) : State :=
  { s with v := s.v.set x.toNat b x.isLt }

/-- VF, the flag register (10_state.md R22). -/
abbrev vf : Nibble := 0xF#4

/-- An address field as a 16-bit value, never sign-extended or scaled: `zext_16(nnn)` (R92). -/
def zext16 (nnn : Addr12) : Word := nnn.zeroExtend 16

/-- The register a shift reads: y under SHIFT_SOURCE = Y, x under SHIFT_SOURCE = X (43_alu.md R202). -/
def State.shiftReg (s : State) (x y : Nibble) : Nibble :=
  match s.params.shiftSource with
  | .y => y
  | .x => x

/-- The address `I + k`, an unbounded integer that never wraps (20_memory.md R63). -/
def State.iAddr (s : State) (k : Nat) : Nat := s.i.toNat + k

/-- The n bytes at I, I+1, ..., in rising order (20_memory.md R67). -/
def State.bytesAtI (s : State) (n : Nat) : List Byte :=
  (List.range n).map fun k => s.mem.read (s.iAddr k)

/-- The registers V0..Vx in order (44_index_memory.md R236). -/
def State.regsUpTo (s : State) (x : Nibble) : List Byte :=
  (List.range (x.toNat + 1)).map fun k => s.reg (BitVec.ofNat 4 k)

/-- The lowest address of base, base+1, ..., base+n-1 that lies above 0xFFF, the one an access of those n
bytes faults at (20_memory.md R63, 60_exceptions.md R301). -/
def firstOutOfBounds (base n : Nat) : Option Nat :=
  ((List.range n).map (base + ·)).find? fun a => decide (0xFFF < a)

/-- Whether key k is pressed in the snapshot (10_state.md R32). -/
def State.keyDown (s : State) (k : Nat) : Bool := s.keys.getLsbD k

/-- The key-down transition of the lowest key that has one, if any has: pressed in this step's snapshot
and not in the previous step's (45_keypad_timer.md R265, R266). -/
def State.keyTransition (s : State) : Option Nat :=
  (List.range 16).find? fun k => s.keys.getLsbD k && !s.lastKeys.getLsbD k

end Sys2Proof.Machine
end

