-- ==== Sys2Proof/Machine/Flags.lean ====
section
/-! DEFINITION. The values VF is given (10_state.md R22) and the order in which Vx and VF are written
(43_alu.md R204). -/

namespace Sys2Proof.Machine

/-- A flag as the byte VF holds: 1 or 0. -/
def flag (b : Bool) : Byte := if b then 1#8 else 0#8

/-- The carry of 8xy4: 1 if the unbounded sum exceeds 255 (43_alu.md R197). -/
def carryFlag (a b : Byte) : Byte := flag (decide (255 < a.toNat + b.toNat))

/-- No borrow in a - b: 1 if a >= b as unsigned bytes (43_alu.md R198, R200). -/
def noBorrowFlag (a b : Byte) : Byte := flag (decide (b.toNat ≤ a.toNat))

/-- The bit a right shift by one shifts out: bit 0 (43_alu.md R199). -/
def shrFlag (a : Byte) : Byte := flag (a.getLsbD 0)

/-- The bit a left shift by one shifts out: bit 7 (43_alu.md R201). -/
def shlFlag (a : Byte) : Byte := flag (a.getLsbD 7)

/-- The two writes of the instructions whose row lists VF first: VF then Vx under TABLE_ORDER, Vx then VF
under FLAG_LAST. The later write wins when x = 0xF (43_alu.md R204, 00_scope.md R9). -/
def State.writeFlagAndReg (s : State) (x : Nibble) (f d : Byte) : State :=
  match s.params.vfWriteOrder with
  | .tableOrder => (s.setReg vf f).setReg x d
  | .flagLast => (s.setReg x d).setReg vf f

/-- The two writes of 8xy4, whose row lists Vx first: the flag is written last under both orders
(43_alu.md R197, R204). -/
def State.writeRegThenFlag (s : State) (x : Nibble) (d f : Byte) : State :=
  (s.setReg x d).setReg vf f

end Sys2Proof.Machine
end

