-- ==== Sys2Proof/Machine/Ops.lean ====
section
/-! DEFINITION. The operations every instruction shares: taking a fault, the next pc and the commit of a
step, the bounds check of a memory access, the call stack, the skip. -/

namespace Sys2Proof.Machine

/-- What an instruction and a step answer. -/
abbrev Result := Host.Outcome State Fault Refusal

/-- Taking a fault: RUN becomes HALTED with the record, and nothing else changes (40_engine.md R126;
60_exceptions.md R304, R305, R306). There is no handler to enter and no return from a fault (R309). -/
def State.halt (s : State) (k : FaultKind) (w : Option Word) : State :=
  { s with run := .halted { kind := k, pc := s.pc, word := w } }

/-- The step's result when the instruction with word w faults. -/
def raiseFault (s : State) (w : Word) (k : FaultKind) : Result := .next (s.halt k (some w))

/-- The pc after this instruction, `pc + 2`, as an unbounded integer (40_engine.md R123). -/
def State.pcPlus2 (s : State) : Nat := s.pc.toNat + 2

/-- The pc after a skip that is taken, `pc + 4` (40_engine.md R123, 42_control_flow.md R167). -/
def State.pcPlus4 (s : State) : Nat := s.pc.toNat + 4

/-- The end of a step that began in s, whose instruction has the word w, whose writes give t and whose
next pc is pcNext: the pc range check first, then the commit of the writes, PC and LASTKEYS (40_engine.md
R124, R125). -/
def commit (s : State) (w : Word) (t : State) (pcNext : Nat) : Result :=
  if Config.lastPc < pcNext then raiseFault s w (.pcOutOfRange pcNext)
  else .next { t with pc := BitVec.ofNat 16 pcNext, lastKeys := s.keys }

/-- The commit of an instruction that goes on to the next one: pc + 2 (40_engine.md R123). -/
def advance (s : State) (w : Word) (t : State) : Result := commit s w t s.pcPlus2

/-- The commit of a skip with condition c: nothing is written, pc + 4 if c, else pc + 2
(42_control_flow.md R167). -/
def skipIf (s : State) (w : Word) (c : Bool) : Result :=
  commit s w s (if c then s.pcPlus4 else s.pcPlus2)

/-- The bounds check of the n bytes at I, made before anything is written: the lowest address above 0xFFF
faults, else the access goes on (20_memory.md R63, R68; 60_exceptions.md R301). -/
def withAccessAtI (s : State) (w : Word) (n : Nat) (go : Result) : Result :=
  match firstOutOfBounds s.i.toNat n with
  | some a => raiseFault s w (.memOutOfBounds a)
  | none => go

/-- Pushing a return address: none when SP = 16 (10_state.md R27). -/
def State.push (s : State) (a : Word) : Option State :=
  if h : s.sp.val < 16 then
    some { s with stack := s.stack.set s.sp.val a h, sp := ⟨s.sp.val + 1, by omega⟩ }
  else none

/-- Popping a return address: none when SP = 0. The slot keeps its value (10_state.md R27). -/
def State.pop (s : State) : Option (Word × State) :=
  if h : 0 < s.sp.val then
    some (s.stack[s.sp.val - 1]'(by omega), { s with sp := ⟨s.sp.val - 1, by omega⟩ })
  else none

/-- The key index check of Ex9E and ExA1: an index above 0xF has no key (45_keypad_timer.md R262). -/
def withKeyIndex (s : State) (w : Word) (k : Byte) (go : Result) : Result :=
  if 0xF < k.toNat then raiseFault s w (.keyIndexOutOfRange k) else go

end Sys2Proof.Machine
end

