-- ==== Sys2Proof/Machine/Alu.lean ====
section
/-! DEFINITION. Register loads, arithmetic, logic and the random byte (43_alu.md). -/

namespace Sys2Proof.Machine

/-- LD Vx, kk (R190). -/
def execLdImm (x : Nibble) (kk : Byte) (s : State) : Result :=
  advance s (encode (.ldImm x kk)) (s.setReg x kk)

/-- ADD Vx, kk (R191): modulo 256, no flag. -/
def execAddImm (x : Nibble) (kk : Byte) (s : State) : Result :=
  advance s (encode (.addImm x kk)) (s.setReg x (s.reg x + kk))

/-- LD Vx, Vy (R193). -/
def execLdReg (x y : Nibble) (s : State) : Result :=
  advance s (encode (.ldReg x y)) (s.setReg x (s.reg y))

/-- OR Vx, Vy (R194): VF is no flag here. -/
def execOrReg (x y : Nibble) (s : State) : Result :=
  advance s (encode (.orReg x y)) (s.setReg x (s.reg x ||| s.reg y))

/-- AND Vx, Vy (R195). -/
def execAndReg (x y : Nibble) (s : State) : Result :=
  advance s (encode (.andReg x y)) (s.setReg x (s.reg x &&& s.reg y))

/-- XOR Vx, Vy (R196). -/
def execXorReg (x y : Nibble) (s : State) : Result :=
  advance s (encode (.xorReg x y)) (s.setReg x (s.reg x ^^^ s.reg y))

/-- ADD Vx, Vy (R197): VF is the carry, written last. -/
def execAddReg (x y : Nibble) (s : State) : Result :=
  advance s (encode (.addReg x y))
    (s.writeRegThenFlag x (s.reg x + s.reg y) (carryFlag (s.reg x) (s.reg y)))

/-- SUB Vx, Vy (R198): VF is no borrow. -/
def execSub (x y : Nibble) (s : State) : Result :=
  advance s (encode (.sub x y))
    (s.writeFlagAndReg x (noBorrowFlag (s.reg x) (s.reg y)) (s.reg x - s.reg y))

/-- SHR Vx, Vy (R199): VF is the bit shifted out. -/
def execShr (x y : Nibble) (s : State) : Result :=
  let b := s.reg (s.shiftReg x y)
  advance s (encode (.shr x y)) (s.writeFlagAndReg x (shrFlag b) (b >>> 1))

/-- SUBN Vx, Vy (R200): VF is no borrow of the reverse difference. -/
def execSubn (x y : Nibble) (s : State) : Result :=
  advance s (encode (.subn x y))
    (s.writeFlagAndReg x (noBorrowFlag (s.reg y) (s.reg x)) (s.reg y - s.reg x))

/-- SHL Vx, Vy (R201): VF is the bit shifted out. -/
def execShl (x y : Nibble) (s : State) : Result :=
  let b := s.reg (s.shiftReg x y)
  advance s (encode (.shl x y)) (s.writeFlagAndReg x (shlFlag b) (b <<< 1))

/-- RND Vx, kk (R203): one draw per execution, whatever kk is. The drawn byte is a free value. A RND that
faults with PC_OUT_OF_RANGE takes no draw: the spec leaves this open (DESIGN CHOICE, assumption 3). -/
def execRnd (x : Nibble) (kk : Byte) (s : State) : Result :=
  advance s (encode (.rnd x kk))
    { (s.setReg x (Config.randByte s.draws &&& kk)) with draws := s.draws + 1 }

end Sys2Proof.Machine
end

