-- ==== Sys2Proof/Machine/Control.lean ====
section
/-! DEFINITION. Control flow: return, system call, jumps, call and the register skips
(42_control_flow.md). -/

namespace Sys2Proof.Machine

/-- RET (R160): the popped value is the next pc as it is. -/
def execRet (s : State) : Result :=
  match s.pop with
  | none => raiseFault s (encode .ret) .stackUnderflow
  | some (a, t) => commit s (encode .ret) t a.toNat

/-- SYS nnn (R162): a no-op. -/
def execSys (nnn : Addr12) (s : State) : Result := advance s (encode (.sys nnn)) s

/-- JP nnn (R164). -/
def execJp (nnn : Addr12) (s : State) : Result := commit s (encode (.jp nnn)) s (zext16 nnn).toNat

/-- CALL nnn (R166): pc + 2 is pushed. -/
def execCall (nnn : Addr12) (s : State) : Result :=
  match s.push (BitVec.ofNat 16 s.pcPlus2) with
  | none => raiseFault s (encode (.call nnn)) .stackOverflow
  | some t => commit s (encode (.call nnn)) t (zext16 nnn).toNat

/-- SE Vx, kk (R168). -/
def execSeImm (x : Nibble) (kk : Byte) (s : State) : Result :=
  skipIf s (encode (.seImm x kk)) (s.reg x == kk)

/-- SNE Vx, kk (R169). -/
def execSneImm (x : Nibble) (kk : Byte) (s : State) : Result :=
  skipIf s (encode (.sneImm x kk)) (s.reg x != kk)

/-- SE Vx, Vy (R170). -/
def execSeReg (x y : Nibble) (s : State) : Result :=
  skipIf s (encode (.seReg x y)) (s.reg x == s.reg y)

/-- SNE Vx, Vy (R171). -/
def execSneReg (x y : Nibble) (s : State) : Result :=
  skipIf s (encode (.sneReg x y)) (s.reg x != s.reg y)

/-- JP V0, nnn (R175): the sum is not masked. -/
def execJpV0 (nnn : Addr12) (s : State) : Result :=
  commit s (encode (.jpV0 nnn)) s ((zext16 nnn).toNat + (s.reg 0x0#4).toNat)

end Sys2Proof.Machine
end

