-- ==== Sys2Proof/Machine/Index.lean ====
section
/-! DEFINITION. The index register and memory transfer (44_index_memory.md). -/

namespace Sys2Proof.Machine

/-- LD I, nnn (R230). -/
def execLdI (nnn : Addr12) (s : State) : Result :=
  advance s (encode (.ldI nnn)) { s with i := zext16 nnn }

/-- ADD I, Vx (R231): modulo 0x10000, no flag, no fault. -/
def execAddIVx (x : Nibble) (s : State) : Result :=
  advance s (encode (.addIVx x)) { s with i := s.i + (s.reg x).zeroExtend 16 }

/-- LD F, Vx (R232, R233): 5 * Vx, not masked. -/
def execLdFVx (x : Nibble) (s : State) : Result :=
  advance s (encode (.ldFVx x)) { s with i := BitVec.ofNat 16 (5 * (s.reg x).toNat) }

/-- The decimal digits of a byte: hundreds, tens, units (44_index_memory.md R234). -/
def decimalDigits (b : Byte) : List Byte :=
  [BitVec.ofNat 8 (b.toNat / 100), BitVec.ofNat 8 (b.toNat / 10 % 10), BitVec.ofNat 8 (b.toNat % 10)]

/-- LD B, Vx (R234): three digits to I, I+1, I+2. -/
def execLdBVx (x : Nibble) (s : State) : Result :=
  withAccessAtI s (encode (.ldBVx x)) 3
    (advance s (encode (.ldBVx x))
      { s with mem := s.mem.writeBlock s.i.toNat (decimalDigits (s.reg x)) })

/-- LD [I], Vx (R236): V0..Vx to I..I+x; I keeps its value (R238). -/
def execLdMemVx (x : Nibble) (s : State) : Result :=
  withAccessAtI s (encode (.ldMemVx x)) (x.toNat + 1)
    (advance s (encode (.ldMemVx x))
      { s with mem := s.mem.writeBlock s.i.toNat (s.regsUpTo x) })

/-- The registers with V0..Vx loaded from I..I+x, those above x as they are (R237). -/
def State.loadRegs (s : State) (x : Nibble) : Vector Byte 16 :=
  Vector.ofFn fun k : Fin 16 => if k.val ≤ x.toNat then s.mem.read (s.iAddr k.val) else s.v[k.val]

/-- LD Vx, [I] (R237): V0..Vx from I..I+x; I keeps its value (R238). -/
def execLdVxMem (x : Nibble) (s : State) : Result :=
  withAccessAtI s (encode (.ldVxMem x)) (x.toNat + 1)
    (advance s (encode (.ldVxMem x)) { s with v := s.loadRegs x })

end Sys2Proof.Machine
end

