-- ==== Sys2Proof/Machine/Keypad.lean ====
section
/-! DEFINITION. Keypad and timer instructions (45_keypad_timer.md). -/

namespace Sys2Proof.Machine

/-- SKP Vx (R260, R262). -/
def execSkp (x : Nibble) (s : State) : Result :=
  withKeyIndex s (encode (.skp x)) (s.reg x)
    (skipIf s (encode (.skp x)) (s.keyDown (s.reg x).toNat))

/-- SKNP Vx (R261, R262). -/
def execSknp (x : Nibble) (s : State) : Result :=
  withKeyIndex s (encode (.sknp x)) (s.reg x)
    (skipIf s (encode (.sknp x)) (!s.keyDown (s.reg x).toNat))

/-- LD Vx, DT (R263). -/
def execLdVxDt (x : Nibble) (s : State) : Result :=
  advance s (encode (.ldVxDt x)) (s.setReg x s.dt)

/-- LD Vx, K (R265, R267): parked at the same pc until some key has a key-down transition. -/
def execLdVxK (x : Nibble) (s : State) : Result :=
  match s.keyTransition with
  | none => commit s (encode (.ldVxK x)) s s.pc.toNat
  | some k => advance s (encode (.ldVxK x)) (s.setReg x (BitVec.ofNat 8 k))

/-- LD DT, Vx (R268). -/
def execLdDtVx (x : Nibble) (s : State) : Result :=
  advance s (encode (.ldDtVx x)) { s with dt := s.reg x }

/-- LD ST, Vx (R269). -/
def execLdStVx (x : Nibble) (s : State) : Result :=
  advance s (encode (.ldStVx x)) { s with st := s.reg x }

end Sys2Proof.Machine
end

