-- ==== Sys2Proof/Machine/Screen.lean ====
section
/-! DEFINITION. The framebuffer and the sprite-memory collision detector (10_state.md R30; 41_display.md
R142, R143), and the display instructions 00E0 and Dxyn. -/

namespace Sys2Proof.Machine

/-- The clear framebuffer (41_display.md R140). -/
def Display.clear : Display := Vector.replicate 32 0#64

/-- The pixel DISP[r][c], row and column reduced modulo the grid (10_state.md R30, 41_display.md R144). -/
def Display.pixel (d : Display) (r c : Nat) : Bool :=
  (d[r % 32]'(Nat.mod_lt r (by decide))).getLsbD (c % 64)

/-- Flipping the pixel DISP[r][c], row and column reduced modulo the grid (41_display.md R142, R144). -/
def Display.flip (d : Display) (r c : Nat) : Display :=
  d.set (r % 32) (d[r % 32]'(Nat.mod_lt r (by decide)) ^^^ BitVec.twoPow 64 (c % 64))
    (Nat.mod_lt r (by decide))

/-- Bit j of a sprite row counted from the left: bit 7 of the byte is the leftmost pixel
(41_display.md R145; DESIGN CHOICE of the spec, assumption 12). -/
def spriteBit (b : Byte) (j : Nat) : Bool := b.getLsbD (7 - j)

/-- A draw in progress: the framebuffer so far, and whether a set pixel has been unset (R142). -/
structure Draw where
  disp : Display
  collide : Bool
  deriving DecidableEq, Repr

/-- One pixel of a draw: a sprite bit of 1 notes whether the pixel was set, and flips it (R142). -/
def drawPixel (r c : Nat) (b : Byte) (p : Draw) (j : Nat) : Draw :=
  if spriteBit b j then
    { disp := p.disp.flip r (c + j), collide := p.collide || p.disp.pixel r (c + j) }
  else p

/-- One row of a draw: the 8 pixels of a sprite byte (R142). -/
def drawRow (r c : Nat) (b : Byte) (p : Draw) : Draw := (List.range 8).foldl (drawPixel r c b) p

/-- The rows of a draw from row r down, one per sprite byte (R142). -/
def drawRows (r c : Nat) : List Byte → Draw → Draw
  | [], p => p
  | b :: bs, p => drawRows (r + 1) c bs (drawRow r c b p)

/-- Drawing a sprite with its top left at column c and row r (R142). -/
def drawSprite (d : Display) (r c : Nat) (sprite : List Byte) : Draw :=
  drawRows r c sprite { disp := d, collide := false }

/-- CLS (41_display.md R140). -/
def execCls (s : State) : Result :=
  advance s (encode .cls) { s with disp := Display.clear, redraw := true }

/-- DRW Vx, Vy, n (41_display.md R142, R146): column Vx, row Vy, n bytes at I. -/
def execDrw (x y n : Nibble) (s : State) : Result :=
  let w := encode (.drw x y n)
  let p := drawSprite s.disp (s.reg y).toNat (s.reg x).toNat (s.bytesAtI n.toNat)
  withAccessAtI s w n.toNat
    (advance s w { (s.setReg vf (flag p.collide)) with disp := p.disp, redraw := true })

end Sys2Proof.Machine
end

