-- ==== Sys2Proof/Machine/Engine.lean ====
section
/-! DEFINITION. The engine and the clocks: fetch, decode and execute of a STEP (40_engine.md), the timer
TICK (60_exceptions.md R310), the keypad latch (10_state.md R32), and which event is next
(60_exceptions.md R312). -/

namespace Sys2Proof.Machine

/-- Fetch: the big-endian word at PC, or none when its two bytes do not lie in memory (40_engine.md
R121). -/
def State.fetch (s : State) : Option Word :=
  if s.pc.toNat ≤ Config.lastPc then
    some (wordOfBytes (s.mem.read s.pc.toNat) (s.mem.read (s.pc.toNat + 1)))
  else none

/-- Executing an INVALID word w: under ABORT a fault, under SKIP a no-op with pc + 2 (40_engine.md
R127). -/
def execInvalid (w : Word) (s : State) : Result :=
  match s.params.invalidOpcode with
  | .abort => raiseFault s w .invalidOpcode
  | .skip => advance s w s

/-- Executing what the decoder made of the word w. -/
def execDecoded (w : Word) (d : Decoded) (s : State) : Result :=
  match d with
  | .instr i => exec i s
  | .invalid _ => execInvalid w s

/-- One STEP: fetch, decode, execute (40_engine.md R126). A fetch outside memory faults with the address
pc + 1 (R121; DEDUCED where R121 and R301 differ, assumption 4). -/
def instructionStep (s : State) : Result :=
  match s.fetch with
  | none => .next (s.halt (.memOutOfBounds (s.pc.toNat + 1)) none)
  | some w => execDecoded w (decode w) s

/-- A countdown timer after one tick: one less, floored at 0 (10_state.md R28, 60_exceptions.md R310). -/
def countDown (t : Byte) : Byte := if t = 0#8 then 0#8 else t - 1#8

/-- One timer TICK: both timers count down; a set REDRAW is signalled and cleared (60_exceptions.md R310,
R311). -/
def timerTick (s : State) : State :=
  { s with
    dt := countDown s.dt
    st := countDown s.st
    redraw := false
    redrawSignals := if s.redraw then s.redrawSignals + 1 else s.redrawSignals }

/-- The host's keypad latch (10_state.md R32, R38). -/
def latchKeys (keys : BitVec 16) (s : State) : State := { s with keys := keys }

/-- The next event: the first of the schedule, a STEP when the schedule is empty (assumption 2). -/
def State.nextEvent (s : State) : Event :=
  match s.schedule with
  | [] => .step
  | e :: _ => e

/-- The state with its next event taken off the schedule. -/
def State.dropEvent (s : State) : State := { s with schedule := s.schedule.tail }

/-- The next event happens. QUIT ends the run and leaves the state as it is (60_exceptions.md R313). -/
def takeEvent (s : State) : Result :=
  match s.nextEvent with
  | .step => instructionStep s.dropEvent
  | .tick => .next (timerTick s.dropEvent)
  | .latch keys => .next (latchKeys keys s.dropEvent)
  | .quit => .fault .runEnded

/-- One event, only while RUN = RUNNING (40_engine.md R120; 60_exceptions.md R305). -/
def runEvent (s : State) : Result :=
  match s.run with
  | .running => takeEvent s
  | .halted _ => .fault .halted

/-- The state with the bytes of a table row's word stored where the next instruction is fetched, ready for
a STEP: running, and no other event before it (assumption 7). -/
def placeTableWord (s : State) (nbits w : Nat) : State :=
  { s with
    mem := s.mem.writeBlock s.pc.toNat (tableWordBytes nbits w)
    run := .running
    schedule := [] }

end Sys2Proof.Machine
end

