-- ==== Sys2Proof/Machine/Step.lean ====
section
/-! DEFINITION. The step of the machine: one event, by default one instruction (Machine/Engine.lean). -/

namespace Sys2Proof.Machine

/-- One step of the machine: the next event (60_exceptions.md R312). -/
def step (s : State) : Host.Outcome State Fault Refusal := runEvent s

/-- s with a table row's word stored where step fetches its next instruction. -/
def State.withFetchWord (s : State) (nbits w : Nat) : State := placeTableWord s nbits w

end Sys2Proof.Machine
end

