-- ==== Sys2Proof/Machine/Boot.lean ====
section
/-! DEFINITION. Loading and boot (70_reset_and_hazards.md R340-R342). -/

namespace Sys2Proof.Machine

/-- Why a program is rejected at load, before a state exists (R341; 60_exceptions.md R303). -/
inductive LoadError where
  | oddLength
  | tooLong
  deriving DecidableEq, Repr

/-- Boot: the zeroed state with FONT at 0x000 and the program at 0x200, or a load error for a program of
odd length or of more than 3584 bytes (R341, R342). The two kinds of error, and oddLength for a program that
is both odd and too long, are the model's (DESIGN CHOICE, assumption 7). -/
def boot (font : Font) (program : List Byte) : Except LoadError State :=
  if program.length % 2 ≠ 0 then .error .oddLength
  else if Config.maxProgram < program.length then .error .tooLong
  else
    .ok { State.reset with
      mem := (Memory.writeBlock (Memory.writeBlock [] 0 (fontBytes font)) Config.programStart program) }

end Sys2Proof.Machine
end

