-- ==== Sys2Proof/Machine/Ports.lean ====
section
/-! DEFINITION. The output ports that are read off the state (10_state.md R38). REDRAW_SIGNAL is the field
`State.redrawSignals`. -/

namespace Sys2Proof.Machine

/-- DISP_OUT: the framebuffer (R38). -/
def State.dispOut (s : State) : Display := s.disp

/-- SOUND_ACTIVE: `ST != 0` (R38; general knowledge of the spec's, D17). -/
def State.soundActive (s : State) : Bool := s.st != 0#8

/-- STATUS: RUNNING or HALTED with its record (R38, 60_exceptions.md R306). -/
def State.status (s : State) : RunState := s.run

/-- The cause code of a fault kind, 1 to 6 (60_exceptions.md R300). -/
def FaultKind.code : FaultKind → Nat
  | .stackOverflow => 1
  | .stackUnderflow => 2
  | .memOutOfBounds _ => 3
  | .pcOutOfRange _ => 4
  | .keyIndexOutOfRange _ => 5
  | .invalidOpcode => 6

end Sys2Proof.Machine
end

