-- ==== Sys2Proof/Machine/Run.lean ====
section
/-! DEFINITION. Runs over an infinite schedule, and their fairness (60_exceptions.md R312). -/

namespace Sys2Proof.Machine

/-- The state after n events of an infinite schedule, none when the run has ended before (R312, R313). -/
def runAt (events : Nat → Event) (s : State) : Nat → Option State
  | 0 => some s
  | n + 1 =>
    match runAt events s n with
    | none => none
    | some t =>
      match step { t with schedule := [events n] } with
      | .next u => some u
      | .fault _ => none
      | .refused _ => none

/-- The fairness of R312: STEP and TICK both occur infinitely often. -/
def Fair (events : Nat → Event) : Prop :=
  (∀ n, ∃ m, n ≤ m ∧ events m = .step) ∧ ∀ n, ∃ m, n ≤ m ∧ events m = .tick

end Sys2Proof.Machine
end

