-- ==== Sys2Proof/Safety.lean ====
section
/-! DEFINITION. The terms claims are made in: the invariant of the machine, what a completed instruction
leaves, which registers an instruction may write, the counts of invalid and valid words, and the closed
form of a draw. -/

namespace Sys2Proof.Machine

/-- The machine's invariant: two bytes can be fetched at PC (10_state.md R24) and memory is in its
canonical form. SP <= 16 (10_state.md R27) holds by SP's type. -/
def State.Inv (s : State) : Prop := s.pc.toNat ≤ 0xFFE ∧ s.mem.wf = true

/-- t is s after an instruction that completed with next pc pcNext: PC and LASTKEYS are committed and RUN
is as it was (40_engine.md R125). -/
def Committed (s t : State) (pcNext : Nat) : Prop :=
  t.pc.toNat = pcNext ∧ t.lastKeys = s.keys ∧ t.run = s.run

/-- Every byte of memory reads in t as it read in s. -/
def SameMemory (s t : State) : Prop := ∀ a : Nat, t.mem.read a = s.mem.read a

/-- The general registers an instruction may write, by the table of 10_state.md R23. -/
def mayWriteReg (i : Instr) (r : Nibble) : Bool :=
  match i with
  | .ldImm x _ | .addImm x _ | .rnd x _ => r == x
  | .ldReg x _ | .orReg x _ | .andReg x _ | .xorReg x _ => r == x
  | .addReg x _ | .sub x _ | .shr x _ | .subn x _ | .shl x _ => r == x || r == vf
  | .drw _ _ _ => r == vf
  | .ldVxDt x | .ldVxK x => r == x
  | .ldVxMem x => decide (r.toNat ≤ x.toNat)
  | .cls | .ret | .sys _ | .jp _ | .call _ | .jpV0 _ | .ldI _ => false
  | .seImm _ _ | .sneImm _ _ | .seReg _ _ | .sneReg _ _ => false
  | .skp _ | .sknp _ | .ldDtVx _ | .ldStVx _ | .addIVx _ | .ldFVx _ | .ldBVx _ | .ldMemVx _ => false

/-- The instructions that go on at pc + 2 whatever they read, and raise no fault of their own: their rules
say "PC_OUT_OF_RANGE only" or "none" (41_display.md R140, 42_control_flow.md R162, 43_alu.md,
44_index_memory.md R230-R232, 45_keypad_timer.md R263, R268, R269). -/
def straightLine (i : Instr) : Bool :=
  match i with
  | .cls | .sys _ | .ldImm _ _ | .addImm _ _ | .ldReg _ _ | .orReg _ _ | .andReg _ _ | .xorReg _ _ => true
  | .addReg _ _ | .sub _ _ | .shr _ _ | .subn _ _ | .shl _ _ | .rnd _ _ => true
  | .ldI _ | .addIVx _ | .ldFVx _ | .ldVxDt _ | .ldDtVx _ | .ldStVx _ => true
  | .ret | .jp _ | .call _ | .jpV0 _ | .seImm _ _ | .sneImm _ _ | .seReg _ _ | .sneReg _ _ => false
  | .drw _ _ _ | .skp _ | .sknp _ | .ldVxK _ | .ldBVx _ | .ldMemVx _ | .ldVxMem _ => false

/-- Instruction i in s takes a fault of kind k: RUN is HALTED with the record, and nothing else changes
(60_exceptions.md R304, R306). -/
def Faults (i : Instr) (s : State) (k : FaultKind) : Prop :=
  exec i s = .next { s with run := .halted { kind := k, pc := s.pc, word := some (encode i) } }

/-- Instruction i in s completes in t with next pc pcNext. -/
def Completes (i : Instr) (s t : State) (pcNext : Nat) : Prop :=
  exec i s = .next t ∧ Committed s t pcNext

/-- How many INVALID words have op in bits 15:12, the other twelve bits taking every value
(30_encoding.md R95). -/
def invalidCount (op : Nibble) : Nat :=
  (List.range 4096).countP fun k => (decode (layoutA op (BitVec.ofNat 12 k))).isInvalid

/-- How many valid words have op in bits 15:12 (30_encoding.md R95). -/
def validCount (op : Nibble) : Nat :=
  (List.range 4096).countP fun k => !(decode (layoutA op (BitVec.ofNat 12 k))).isInvalid

/-- Some sprite bit of 1 of `DRW Vx, Vy, n` in s falls on the pixel at row r and column c, for r below 32
and c below 64 (41_display.md R142, R144, R145). -/
def SpriteCovers (s : State) (x y n : Nibble) (r c : Nat) : Prop :=
  ∃ i < n.toNat, ∃ j < 8, (s.mem.read (s.i.toNat + i)).getLsbD (7 - j) = true ∧
    ((s.reg y).toNat + i) % 32 = r ∧ ((s.reg x).toNat + j) % 64 = c

/-- The collision of `DRW Vx, Vy, n` in closed form: some sprite bit of 1 falls on a pixel that is set in
s (41_display.md R143). -/
def SpriteCollides (s : State) (x y n : Nibble) : Prop :=
  ∃ i < n.toNat, ∃ j < 8, (s.mem.read (s.i.toNat + i)).getLsbD (7 - j) = true ∧
    s.disp.pixel (((s.reg y).toNat + i) % 32) (((s.reg x).toNat + j) % 64) = true

end Sys2Proof.Machine
end

