-- ==== Sys2Proof/Certificates/Slice0/Obligations.lean ====
section
/-! DEFINITION. The statements for the provers, one `def Obligations.<Name> : Prop` each; each docstring says
what the statement says and the rules of spec/ it comes from. -/

open Sys2Proof Sys2Proof.Machine

/-- For every well-formed instruction, with every operand at every value its fields admit, the decoder reads
the encoded word as that same instruction: no bit of an encoding is dropped or mixed up. (R92, R93, R94.) -/
def Obligations.DecodeOfEncodeIsTheInstruction : Prop :=
  ∀ i : Instr, i.wf = true → decode (encode i) = .instr i

/-- For every 16-bit word that decodes to an instruction, encoding that instruction gives the word back, and
the instruction is well-formed: each valid word has one meaning, and every bit of it is fixed or held in
an operand. (R92, R93, R94.) -/
def Obligations.EncodeOfDecodeIsTheWord : Prop :=
  ∀ (w : Word) (i : Instr), decode w = .instr i → encode i = w ∧ i.wf = true

/-- The opcode map has 35 different rows, each the row of the instruction its match decodes to. A word that
decodes to an instruction has a row in the map and matches it, and any other row it matches is the SYS
row, which does not count, with the instruction being CLS or RET; a word the decoder calls INVALID
matches no row of the map. (R94.) -/
def Obligations.ValidWordsMatchExactlyTheirRow : Prop :=
  opcodeMap.length = 35 ∧ opcodeMap.Nodup ∧
  (∀ r ∈ opcodeMap, ∃ i : Instr, decode r.pattern = .instr i ∧ i.row = r) ∧
  (∀ (w : Word) (i : Instr), decode w = .instr i →
    i.row ∈ opcodeMap ∧ i.row.matchesWord w = true ∧
    ∀ r ∈ opcodeMap, r.matchesWord w = true →
      r = i.row ∨ (r = ⟨0x0000#16, 0xF000#16⟩ ∧ (i = .cls ∨ i = .ret))) ∧
  (∀ (w : Word) (g : InvalidGroup), decode w = .invalid g →
    ∀ r ∈ opcodeMap, r.matchesWord w = false)

/-- A word is INVALID exactly when it is 5xyN with N nonzero, 8xyN with N in 8, 9, A, B, C, D, F, 9xyN with N
nonzero, ExKK with KK neither 9E nor A1, or FxKK with KK none of the nine sub-operations; each group
under its own name. Every word with op in 0, 1, 2, 3, 4, 6, 7, A, B, C, D is valid. The groups hold 3840,
1792, 3840, 4064 and 3952 words; over all sixteen values of op 17488 words are INVALID and 48048 valid.
(What executing an INVALID word does is R127, stated in InvalidWordFollowsThePolicy.) (R95.) -/
def Obligations.InvalidWordsAreExactlyTheGroups : Prop :=
  (∀ w : Word,
    (decode w = .invalid .group5 ↔ fieldOp w = 0x5#4 ∧ fieldN w ≠ 0x0#4) ∧
    (decode w = .invalid .group8 ↔
      fieldOp w = 0x8#4 ∧ fieldN w ∈ [0x8#4, 0x9#4, 0xA#4, 0xB#4, 0xC#4, 0xD#4, 0xF#4]) ∧
    (decode w = .invalid .group9 ↔ fieldOp w = 0x9#4 ∧ fieldN w ≠ 0x0#4) ∧
    (decode w = .invalid .groupE ↔ fieldOp w = 0xE#4 ∧ fieldKK w ∉ [0x9E#8, 0xA1#8]) ∧
    (decode w = .invalid .groupF ↔
      fieldOp w = 0xF#4 ∧
      fieldKK w ∉ [0x07#8, 0x0A#8, 0x15#8, 0x18#8, 0x1E#8, 0x29#8, 0x33#8, 0x55#8, 0x65#8])) ∧
  (∀ w : Word,
    fieldOp w ∈ [0x0#4, 0x1#4, 0x2#4, 0x3#4, 0x4#4, 0x6#4, 0x7#4, 0xA#4, 0xB#4, 0xC#4, 0xD#4] →
    ∃ i : Instr, decode w = .instr i) ∧
  invalidCount 0x5#4 = 3840 ∧ invalidCount 0x8#4 = 1792 ∧ invalidCount 0x9#4 = 3840 ∧
  invalidCount 0xE#4 = 4064 ∧ invalidCount 0xF#4 = 3952 ∧
  ((List.range 16).map fun op => invalidCount (BitVec.ofNat 4 op)).sum = 17488 ∧
  ((List.range 16).map fun op => validCount (BitVec.ofNat 4 op)).sum = 48048

/-- One word of each layout, written out from the spec's encoding tables, decodes to the instruction it
stands for; 5121 and 8128 are INVALID. (R91, R93, R94.) -/
def Obligations.WrittenOutWordsDecode : Prop :=
  decode 0x00E0#16 = .instr .cls ∧ decode 0x00E1#16 = .instr (.sys 0x0E1#12) ∧
  decode 0x2ABC#16 = .instr (.call 0xABC#12) ∧ decode 0x6A2F#16 = .instr (.ldImm 0xA#4 0x2F#8) ∧
  decode 0x8125#16 = .instr (.sub 0x1#4 0x2#4) ∧ decode 0xD12F#16 = .instr (.drw 0x1#4 0x2#4 0xF#4) ∧
  decode 0xE1A1#16 = .instr (.sknp 0x1#4) ∧ decode 0xF355#16 = .instr (.ldMemVx 0x3#4) ∧
  decode 0x5121#16 = .invalid .group5 ∧ decode 0x8128#16 = .invalid .group8

/-- The word decoded from two bytes is 256 times the first plus the second, and a fetch at a pc up to 0xFFE
gives 256 times the byte at pc plus the byte at pc + 1. (R64.) -/
def Obligations.InstructionBytesAreBigEndian : Prop :=
  (∀ (hi lo : Byte) (rest : List Byte), ∃ w : Word,
    w.toNat = 256 * hi.toNat + lo.toNat ∧ decodeBytes (hi :: lo :: rest) = .word (decode w) rest) ∧
  (∀ s : State, s.pc.toNat ≤ 0xFFE → ∃ w : Word, s.fetch = some w ∧
    w.toNat = 256 * (s.mem.read s.pc.toNat).toNat + (s.mem.read (s.pc.toNat + 1)).toNat)

/-- While RUN = RUNNING and the next event is a STEP, step is one instruction step on the state with that
event taken off the schedule; and when the two bytes at a pc up to 0xFFE decode to an instruction i, that
is exec of i on that state, which with an empty schedule is the state itself. (The schedule is the
model's own, assumption 2.) (That an odd pc is fetched like an even one is the spec's own choice D8,
assumption 10.) (R120, R121, R122, R126, assumption 2, assumption 10.) -/
def Obligations.StepRunsTheDecodedInstruction : Prop :=
  ∀ s : State, s.run = .running → s.nextEvent = .step →
    step s = instructionStep s.dropEvent ∧
    (∀ i : Instr, s.pc.toNat ≤ 0xFFE →
      decode (wordOfBytes (s.mem.read s.pc.toNat) (s.mem.read (s.pc.toNat + 1))) = .instr i →
      step s = exec i s.dropEvent ∧ (s.schedule = [] → step s = exec i s))

/-- A STEP that fetches an INVALID word w: under ABORT it halts with INVALID_OPCODE(pc, w); under SKIP it
writes nothing but LASTKEYS, which takes KEYS, and goes on at PC = pc + 2, or raises PC_OUT_OF_RANGE when
pc + 2 exceeds 0xFFE. (The policy is the spec's own choice, 92_eei_decisions.md D6, and its field in
State the model's, assumption 1; PC_OUT_OF_RANGE is the spec's own choice D7, assumption 13; LASTKEYS is
D11, assumption 11.) (R127, R124, R125, assumption 1, assumption 11, assumption 13.) -/
def Obligations.InvalidWordFollowsThePolicy : Prop :=
  ∀ (s : State) (w : Word) (g : InvalidGroup), s.fetch = some w → decode w = .invalid g →
    (s.params.invalidOpcode = .abort →
      instructionStep s = .next { s with
        run := .halted { kind := .invalidOpcode, pc := s.pc, word := some w } }) ∧
    (s.params.invalidOpcode = .skip → s.pc.toNat + 2 ≤ 0xFFE →
      instructionStep s = .next { s with pc := s.pc + 2#16, lastKeys := s.keys }) ∧
    (s.params.invalidOpcode = .skip → 0xFFE < s.pc.toNat + 2 →
      instructionStep s = .next { s with
        run := .halted { kind := .pcOutOfRange (s.pc.toNat + 2), pc := s.pc, word := some w } })

/-- A STEP whose pc exceeds 0xFFE halts with MEM_OUT_OF_BOUNDS(pc + 1), with no instruction word in the
record; the address for pc above 0xFFF and the absent word are the model's choice (assumption 4). (R121,
assumption 4.) -/
def Obligations.FetchOutsideMemoryFaults : Prop :=
  ∀ s : State, 0xFFE < s.pc.toNat →
    instructionStep s = .next { s with
      run := .halted { kind := .memOutOfBounds (s.pc.toNat + 1), pc := s.pc, word := none } }

/-- A step answers no next state in exactly two cases: RUN = HALTED, or the machine runs and the next event
is QUIT; each under its own name. It never refuses. So from every running state with another next event,
whatever memory and registers hold, there is a next state. (That a fault halts for good is the spec's own
choice D13, assumption 8, and the ends of a run D28, assumption 20; the schedule is the model's own,
assumption 2.) (R120, R305, R313, assumption 2, assumption 8, assumption 20.) -/
def Obligations.OnlyHaltAndQuitStopTheMachine : Prop :=
  ∀ s : State,
    (∀ r : Fault, step s = .fault r ↔
      (s.run ≠ .running ∧ r = .halted) ∨ (s.run = .running ∧ s.nextEvent = .quit ∧ r = .runEnded)) ∧
    (∀ q : Refusal, step s ≠ .refused q) ∧
    (s.run = .running → s.nextEvent ≠ .quit → ∃ t, step s = .next t)

/-- On a running machine a TICK event takes DT and ST down by one, floored at 0, raises one REDRAW_SIGNAL
exactly when REDRAW is set, clears REDRAW, and touches no other state; SOUND_ACTIVE is then on exactly
when ST was above 1. (SOUND_ACTIVE is the spec's own choice D17, assumption 17.) (The count of signals is
the model's own output field, assumption 9.) (That the tick clears REDRAW is D16, assumption 9.) (R38,
R269, R310, R311, assumption 9, assumption 17.) -/
def Obligations.TimerTickCountsDownAndSignals : Prop :=
  ∀ s : State, s.run = .running → s.nextEvent = .tick → ∃ t : State, step s = .next t ∧
    t.dt.toNat = s.dt.toNat - 1 ∧ t.st.toNat = s.st.toNat - 1 ∧ t.redraw = false ∧
    t.redrawSignals = s.redrawSignals + (if s.redraw = true then 1 else 0) ∧
    (t.soundActive = true ↔ 1 < s.st.toNat) ∧
    t = { s.dropEvent with
      dt := t.dt, st := t.st, redraw := t.redraw, redrawSignals := t.redrawSignals }

/-- On a running machine a latch event with a snapshot puts that snapshot into KEYS and leaves all other
state as it was; LASTKEYS too. (The event is the model's own form of the port, assumption 2.) (When KEYS
is latched is the spec's own choice D22, assumption 11.) (R32, R38, assumption 2, assumption 11.) -/
def Obligations.KeypadLatchWritesOnlyKeys : Prop :=
  ∀ (s : State) (ks : BitVec 16), s.run = .running → s.nextEvent = .latch ks →
    step s = .next { s.dropEvent with keys := ks }

/-- At reset PC is at most 0xFFE and memory is in its canonical form. (The canonical form is the model's own
choice, assumption 5, and no rule of the spec.) (R24, R40, assumption 5.) -/
def Obligations.ResetKeepsTheInvariant : Prop :=
  State.reset.Inv

/-- For every font and every program of even length up to 3584 bytes boot gives a state: V0-VF, I, SP, STACK,
DT, ST, KEYS, LASTKEYS, REDRAW and every pixel 0, PC = 0x200, RUN = RUNNING, the font at 0x000-0x04F, the
program from 0x200, and 0 in every other byte of memory. (KEYS, LASTKEYS, RUN and the longest program are
the spec's own choices, D22 and D11, assumption 11, D13, assumption 8, and D21, assumption 7.) (R40,
R341, R342, assumption 7, assumption 8, assumption 11.) -/
def Obligations.BootLeavesTheResetValues : Prop :=
  ∀ (font : Font) (program : List Byte), program.length % 2 = 0 → program.length ≤ 3584 →
    ∃ s : State, boot font program = .ok s ∧
      (∀ x : Nibble, s.reg x = 0#8) ∧ s.i = 0#16 ∧ s.pc = 0x200#16 ∧ s.sp.val = 0 ∧
      (∀ (j : Nat) (h : j < 16), s.stack[j] = 0#16) ∧ s.dt = 0#8 ∧ s.st = 0#8 ∧
      (∀ r < 32, ∀ c < 64, s.disp.pixel r c = false) ∧ s.redraw = false ∧
      s.keys = 0#16 ∧ s.lastKeys = 0#16 ∧ s.run = .running ∧
      (∀ (d k : Nat) (hd : d < 16) (hk : k < 5), s.mem.read (5 * d + k) = font[d][k]) ∧
      (∀ (k : Nat) (h : k < program.length), s.mem.read (0x200 + k) = program[k]) ∧
      (∀ a : Nat, 0x050 ≤ a → a < 0x200 → s.mem.read a = 0#8) ∧
      (∀ a : Nat, 0x200 + program.length ≤ a → a ≤ 0xFFF → s.mem.read a = 0#8)

/-- boot answers a load error, and so no state, exactly when the program has odd length or more than 3584
bytes. (The bound of 3584 bytes is the spec's own choice, D21, assumption 7.) (R341, R303, assumption 7.) -/
def Obligations.BootRejectsBadPrograms : Prop :=
  ∀ (font : Font) (program : List Byte),
    (∃ e : LoadError, boot font program = .error e) ↔
      (program.length % 2 = 1 ∨ 3584 < program.length)

/-- Booting the default FONT (general knowledge of the spec's, assumption 6) with an empty program gives
State.reset; its policies are ABORT, Y and TABLE_ORDER, and glyph A, at 0x032, reads F0 90 F0 90 90. (R6,
R40, R41, R341, assumption 1, assumption 6.) -/
def Obligations.ResetIsTheDefaultBoot : Prop :=
  boot defaultFont [] = .ok State.reset ∧
  State.reset.params =
    { invalidOpcode := .abort, shiftSource := .y, vfWriteOrder := .tableOrder } ∧
  (List.range 5).map (fun k => State.reset.mem.read (0x032 + k)) =
    [0xF0#8, 0x90#8, 0xF0#8, 0x90#8, 0x90#8]

/-- Whatever instruction or INVALID word a running machine steps, if the step leaves it halted then the next
state is the state it began in with RUN changed: no register, byte of memory, pixel, REDRAW, stack entry,
SP, I, DT, ST, LASTKEYS or PC differs. (Precise faults are the spec's own choice D13, assumption 8; that
a faulting RND takes no draw is the model's choice, assumption 3.) (R304, assumption 3, assumption 8.) -/
def Obligations.FaultingStepChangesOnlyRun : Prop :=
  ∀ (s t : State) (r : FaultRecord), s.run = .running → instructionStep s = .next t →
    t.run = .halted r → t = { s with run := .halted r }

/-- If a STEP of a running machine leaves it halted, the record's pc is the pc the step began with, and its
word is the word fetched there (absent when nothing could be fetched, assumption 4). It rests on the
encoder giving back the fetched word. (The record is the spec's own choice D13, assumption 8.) (R36,
R126, R306, assumption 4, assumption 8.) -/
def Obligations.FaultRecordNamesTheInstruction : Prop :=
  ∀ (s t : State) (r : FaultRecord), s.run = .running → instructionStep s = .next t →
    t.run = .halted r → r.pc = s.pc ∧ r.word = s.fetch

/-- If executing an instruction halts a running machine: STACK_OVERFLOW only by CALL with SP = 16,
STACK_UNDERFLOW only by RET with SP = 0, MEM_OUT_OF_BOUNDS(a) only by DRW, Fx33, Fx55, Fx65 with a above
0xFFF, PC_OUT_OF_RANGE(n) only with n above 0xFFE, KEY_INDEX_OUT_OF_RANGE(k) only by SKP or SKNP with k =
V[x] above 0xF, and INVALID_OPCODE by no instruction. (PC_OUT_OF_RANGE is the spec's own choice D7, the
order of faults D14, both assumption 13; rejecting an access above 0xFFF is D9, assumption 14; rejecting
a key index above 0xF is D10, assumption 15.) (R300, R301, R302, R308, assumption 13, assumption 14,
assumption 15.) -/
def Obligations.FaultsHaveOnlyTheirListedCauses : Prop :=
  ∀ (i : Instr) (s t : State) (r : FaultRecord), s.run = .running → exec i s = .next t →
    t.run = .halted r →
    match r.kind with
    | .stackOverflow => (∃ nnn, i = .call nnn) ∧ s.sp.val = 16
    | .stackUnderflow => i = .ret ∧ s.sp.val = 0
    | .memOutOfBounds a => 0xFFF < a ∧
        ((∃ x y n, i = .drw x y n) ∨ ∃ x, i = .ldBVx x ∨ i = .ldMemVx x ∨ i = .ldVxMem x)
    | .pcOutOfRange n => 0xFFE < n
    | .keyIndexOutOfRange k => (∃ x, (i = .skp x ∨ i = .sknp x) ∧ k = s.reg x) ∧ 0xF < k.toNat
    | .invalidOpcode => False

/-- Dxyn with n > 0 and I + n > 0x1000, Fx33 with I + 3 > 0x1000, and Fx55 and Fx65 with I + x + 1 > 0x1000
halt with MEM_OUT_OF_BOUNDS(max(I, 0x1000)), at every pc; I + k is an unbounded sum. (That an access
above 0xFFF is rejected is the spec's own choice D9, assumption 14; that this fault comes before
PC_OUT_OF_RANGE and names the lowest address is D14, assumption 13.) (R142, R234, R236, R237, R301, R308,
assumption 13, assumption 14.) -/
def Obligations.MemoryFaultNamesTheLowestAddress : Prop :=
  ∀ s : State,
    (∀ x y n : Nibble, 0 < n.toNat → 0x1000 < s.i.toNat + n.toNat →
      Faults (.drw x y n) s (.memOutOfBounds (max s.i.toNat 0x1000))) ∧
    (∀ x : Nibble, 0x1000 < s.i.toNat + 3 →
      Faults (.ldBVx x) s (.memOutOfBounds (max s.i.toNat 0x1000))) ∧
    (∀ x : Nibble, 0x1000 < s.i.toNat + x.toNat + 1 →
      Faults (.ldMemVx x) s (.memOutOfBounds (max s.i.toNat 0x1000)) ∧
      Faults (.ldVxMem x) s (.memOutOfBounds (max s.i.toNat 0x1000)))

/-- The twenty instructions with no jump, skip, wait, memory access or fault of their own (straightLine) halt
with PC_OUT_OF_RANGE(pc + 2) at every pc from which pc + 2 exceeds 0xFFE; pc + 2 is not wrapped. (The
fault is the spec's own choice D7, assumption 13; that a faulting RND takes no draw is the model's
choice, assumption 3. DRW, Fx33, Fx55, Fx65, Fx0A and the skips have this clause in statements of their
own.) (R124, assumption 3, assumption 13.) -/
def Obligations.StraightLineInstructionsFaultAtTheEnd : Prop :=
  ∀ (i : Instr) (s : State), straightLine i = true → 0xFFE < s.pc.toNat + 2 →
    Faults i s (.pcOutOfRange (s.pc.toNat + 2))

/-- Whatever instruction a running machine executes, from any pc, if it does not halt then PC is at most
0xFFE afterwards and LASTKEYS is the snapshot KEYS of the state it began in. (LASTKEYS is the spec's own
choice D11, assumption 11; the check that keeps PC in range is D7, assumption 13.) (R24, R35, R125,
assumption 11, assumption 13.) -/
def Obligations.CompletedStepCommitsPcAndKeys : Prop :=
  ∀ (i : Instr) (s t : State), exec i s = .next t → t.run = .running →
    t.pc.toNat ≤ 0xFFE ∧ t.lastKeys = s.keys

/-- For every state with PC <= 0xFFE and memory in canonical form (strictly rising addresses in 0x000-0xFFF,
no entry equal to the unlisted reading), whatever the next event, the policies, the schedule and the free
values, if the step answers a next state then that state has them too. (The canonical form is the model's
own choice, assumption 5, and no rule of the spec. The check that keeps PC in range is the spec's own
choice D7, assumption 13.) (R24, R69, R124, R125, R310, assumption 5, assumption 13.) -/
def Obligations.EveryStepKeepsTheInvariant : Prop :=
  ∀ s t : State, s.Inv → step s = .next t → t.Inv

/-- If an instruction completes (a step that faults is not meant) with the pc it began with, it is Fx0A
without a key-down transition, or it is JP, CALL, JP V0 or RET and its target is its own address. (R128
names 1nnn, Bnnn and 00EE; that 2nnn to its own address is the same case is the model's reading, DEDUCED
from R166 and program P4 of 95_test_vectors.md, assumption 18. The key-down transition is the spec's own
choice D11, assumption 11.) (R128, R166, R265, R266, assumption 11, assumption 18.) -/
def Obligations.PcStaysOnlyByWaitOrSelfJump : Prop :=
  ∀ (i : Instr) (s t : State), exec i s = .next t → t.run = .running → t.pc = s.pc →
    (∃ x, i = .ldVxK x ∧ ∀ k < 16, ¬(s.keys.getLsbD k = true ∧ s.lastKeys.getLsbD k = false)) ∨
    (∃ nnn : Addr12, (i = .jp nnn ∨ i = .call nnn) ∧ nnn.toNat = s.pc.toNat) ∨
    (∃ nnn : Addr12, i = .jpV0 nnn ∧ nnn.toNat + (s.reg 0x0#4).toNat = s.pc.toNat) ∨
    (i = .ret ∧ ∃ h : 0 < s.sp.val, s.stack[s.sp.val - 1] = s.pc)

/-- Whatever an instruction does when it answers a next state (a halted one included): DISP and REDRAW change
only by 00E0 and Dxyn, STACK only by 2nnn, SP only by 2nnn and 00EE, I only by Annn, Fx1E and Fx29, DT
only by Fx15, ST only by Fx18, and REDRAW is never cleared. (That 00EE changes no stack slot is the
spec's own choice D25, R27, assumption 20; that no instruction clears REDRAW, only a timer tick, is D16,
assumption 9.) (R22, R25, R26, R28, R30, R31, R37, R27, assumption 20.) -/
def Obligations.SpecialStateHasOnlyItsWriters : Prop :=
  ∀ (i : Instr) (s t : State), exec i s = .next t →
    (t.disp ≠ s.disp ∨ t.redraw ≠ s.redraw → i = .cls ∨ ∃ x y n, i = .drw x y n) ∧
    (t.stack ≠ s.stack → ∃ nnn, i = .call nnn) ∧
    (t.sp ≠ s.sp → i = .ret ∨ ∃ nnn, i = .call nnn) ∧
    (t.i ≠ s.i → (∃ nnn, i = .ldI nnn) ∨ ∃ x, i = .addIVx x ∨ i = .ldFVx x) ∧
    (t.dt ≠ s.dt → ∃ x, i = .ldDtVx x) ∧ (t.st ≠ s.st → ∃ x, i = .ldStVx x) ∧
    (s.redraw = true → t.redraw = true)

/-- If a byte of memory reads differently after an instruction, the instruction is Fx33 and the address is
one of I, I+1, I+2, or it is Fx55 with operand x and the address is one of I..I+x. (R67.) -/
def Obligations.OnlyTwoInstructionsWriteMemory : Prop :=
  ∀ (i : Instr) (s t : State) (a : Nat), exec i s = .next t → t.mem.read a ≠ s.mem.read a →
    (∃ x, i = .ldBVx x ∧ s.i.toNat ≤ a ∧ a ≤ s.i.toNat + 2) ∨
    (∃ x : Nibble, i = .ldMemVx x ∧ s.i.toNat ≤ a ∧ a ≤ s.i.toNat + x.toNat)

/-- Whatever instruction answers a next state, a register whose value differs afterwards is Vx for the
instructions listed with Vx, Vx or VF for 8xy4-8xy7 and 8xyE, VF for Dxyn, one of V0..Vx for Fx65; no
other instruction changes a register. (R22, R23.) -/
def Obligations.RegistersHaveOnlyTheirWriters : Prop :=
  ∀ (i : Instr) (s t : State) (r : Nibble), exec i s = .next t → t.reg r ≠ s.reg r →
    mayWriteReg i r = true

/-- Executing any instruction leaves KEYS, and the model's own fields for the policies, the schedule and the
output signals, as they were; and no event of any kind changes the policies. (REDRAW_SIGNAL is raised by
a timer tick only, R311; its count is the model's own output field and that the tick signals is the
spec's own choice D16, assumption 9. The policies' field is assumption 1, the schedule assumption 2.)
(R32, R39, assumption 1, assumption 2, R38, R311, assumption 9.) -/
def Obligations.InstructionsNeverWriteHostState : Prop :=
  (∀ (i : Instr) (s t : State), exec i s = .next t →
    t.keys = s.keys ∧ t.params = s.params ∧ t.schedule = s.schedule ∧
    t.redrawSignals = s.redrawSignals) ∧
  (∀ s t : State, step s = .next t → t.params = s.params)

/-- CLS with pc + 2 <= 0xFFE completes with every pixel 0, REDRAW 1 and PC = pc + 2, all other state but
LASTKEYS as it was (VF too); otherwise it halts with PC_OUT_OF_RANGE. (PC_OUT_OF_RANGE is the spec's own
choice D7, assumption 13; LASTKEYS is D11, assumption 11.) (R140, R124, R125, assumption 11, assumption
13.) -/
def Obligations.ClsClearsTheDisplay : Prop :=
  ∀ s : State,
    (s.pc.toNat + 2 ≤ 0xFFE → ∃ t : State, Completes .cls s t (s.pc.toNat + 2) ∧
      (∀ r < 32, ∀ c < 64, t.disp.pixel r c = false) ∧ t.redraw = true ∧
      t = { s with disp := t.disp, redraw := t.redraw, pc := t.pc, lastKeys := t.lastKeys }) ∧
    (0xFFE < s.pc.toNat + 2 → Faults .cls s (.pcOutOfRange (s.pc.toNat + 2)))

/-- Every SYS nnn with pc + 2 <= 0xFFE completes at pc + 2 with nothing else but LASTKEYS written; at pc =
0xFFE it halts with PC_OUT_OF_RANGE(0x1000). (PC_OUT_OF_RANGE is the spec's own choice D7, assumption 13;
LASTKEYS is D11, assumption 11.) (R162, R124, R125, assumption 11, assumption 13.) -/
def Obligations.SysIsANoOp : Prop :=
  ∀ (nnn : Addr12) (s : State),
    (s.pc.toNat + 2 ≤ 0xFFE →
      exec (.sys nnn) s = .next { s with pc := s.pc + 2#16, lastKeys := s.keys }) ∧
    (0xFFE < s.pc.toNat + 2 → Faults (.sys nnn) s (.pcOutOfRange (s.pc.toNat + 2)))

/-- JP nnn with nnn <= 0xFFE completes with PC = nnn and nothing else but LASTKEYS written; JP 0xFFF halts
with PC_OUT_OF_RANGE(0xFFF). (That an odd target is legal is the spec's own choice D8, assumption 10;
PC_OUT_OF_RANGE is the spec's own choice D7, assumption 13; LASTKEYS is D11, assumption 11.) (R164, R66,
assumption 10, assumption 11, assumption 13.) -/
def Obligations.JumpGoesToItsTarget : Prop :=
  ∀ (nnn : Addr12) (s : State),
    (nnn.toNat ≤ 0xFFE → ∃ t : State, Completes (.jp nnn) s t nnn.toNat ∧
      t = { s with pc := t.pc, lastKeys := t.lastKeys }) ∧
    (nnn = 0xFFF#12 → Faults (.jp nnn) s (.pcOutOfRange 0xFFF))

/-- With SP < 16 and nnn <= 0xFFE CALL completes with STACK[SP] = pc + 2, SP + 1, PC = nnn, every other slot
and all other state but LASTKEYS as it was; nnn = 0xFFF halts with PC_OUT_OF_RANGE and pushes nothing; SP
= 16 halts with STACK_OVERFLOW. (That an odd target is legal is the spec's own choice D8, assumption 10;
PC_OUT_OF_RANGE is the spec's own choice D7, assumption 13; LASTKEYS is D11, assumption 11.) (R166, R66,
assumption 10, assumption 11, assumption 13.) -/
def Obligations.CallPushesTheReturnAddress : Prop :=
  ∀ (nnn : Addr12) (s : State),
    ((h : s.sp.val < 16) → nnn.toNat ≤ 0xFFE → ∃ t : State, Completes (.call nnn) s t nnn.toNat ∧
      t.stack[s.sp.val] = s.pc + 2#16 ∧ t.sp.val = s.sp.val + 1 ∧
      (∀ (j : Nat) (hj : j < 16), j ≠ s.sp.val → t.stack[j] = s.stack[j]) ∧
      t = { s with stack := t.stack, sp := t.sp, pc := t.pc, lastKeys := t.lastKeys }) ∧
    (s.sp.val < 16 → nnn = 0xFFF#12 → Faults (.call nnn) s (.pcOutOfRange 0xFFF)) ∧
    (s.sp.val = 16 → Faults (.call nnn) s .stackOverflow)

/-- With SP > 0 and STACK[SP - 1] <= 0xFFE RET completes with PC = STACK[SP - 1], SP - 1, and all else but
LASTKEYS as it was, the popped slot too; a popped value above 0xFFE halts with PC_OUT_OF_RANGE of it; SP
= 0 halts with STACK_UNDERFLOW. (That the popped slot keeps its value is the spec's own choice D25,
assumption 20; that an odd return address is legal is D8, assumption 10; PC_OUT_OF_RANGE is the spec's
own choice D7, assumption 13; LASTKEYS is D11, assumption 11.) (R160, R27, R66, assumption 10, assumption
11, assumption 13, assumption 20.) -/
def Obligations.ReturnPopsTheStack : Prop :=
  ∀ s : State,
    ((h : 0 < s.sp.val) → (s.stack[s.sp.val - 1]).toNat ≤ 0xFFE →
      ∃ t : State, Completes .ret s t (s.stack[s.sp.val - 1]).toNat ∧ t.sp.val = s.sp.val - 1 ∧
        t = { s with sp := t.sp, pc := t.pc, lastKeys := t.lastKeys }) ∧
    ((h : 0 < s.sp.val) → 0xFFE < (s.stack[s.sp.val - 1]).toNat →
      Faults .ret s (.pcOutOfRange (s.stack[s.sp.val - 1]).toNat)) ∧
    (s.sp.val = 0 → Faults .ret s .stackUnderflow)

/-- If CALL completes and leaves t, and the return address pc + 2 is at most 0xFFE, then RET in t completes
with PC = pc + 2 and SP as it was before the CALL; registers and memory are untouched. (That the
addresses may be odd is the spec's own choice D8, assumption 10.) (That a completed instruction writes
LASTKEYS is D11, assumption 11.) (R27, R160, R166, assumption 10, assumption 11, assumption 20.) -/
def Obligations.CallThenReturnComesBack : Prop :=
  ∀ (nnn : Addr12) (s t : State), exec (.call nnn) s = .next t → s.run = .running →
    t.run = .running → s.pc.toNat + 2 ≤ 0xFFE →
    ∃ u : State, Completes .ret t u (s.pc.toNat + 2) ∧ u.sp = s.sp ∧ u.v = s.v ∧ u.mem = s.mem

/-- SE and SNE with an immediate or a register complete at pc + 4 when the registers' values compare as the
instruction says, else at pc + 2, writing nothing else but LASTKEYS; when that next pc exceeds 0xFFE they
halt with PC_OUT_OF_RANGE of it. (PC_OUT_OF_RANGE is the spec's own choice D7, assumption 13; LASTKEYS is
D11, assumption 11.) (R168, R169, R170, R171, R167, R124, R125, assumption 11, assumption 13.) -/
def Obligations.RegisterSkipsCompareAndSkip : Prop :=
  ∀ (x y : Nibble) (kk : Byte) (s : State) (i : Instr) (c : Bool),
    (i = .seImm x kk ∧ c = decide (s.reg x = kk)) ∨ (i = .sneImm x kk ∧ c = decide (s.reg x ≠ kk)) ∨
    (i = .seReg x y ∧ c = decide (s.reg x = s.reg y)) ∨
    (i = .sneReg x y ∧ c = decide (s.reg x ≠ s.reg y)) →
    let next := if c = true then s.pc.toNat + 4 else s.pc.toNat + 2
    (next ≤ 0xFFE → ∃ t : State, Completes i s t next ∧
      t = { s with pc := t.pc, lastKeys := t.lastKeys }) ∧
    (0xFFE < next → Faults i s (.pcOutOfRange next))

/-- JP V0, nnn with nnn + V0 <= 0xFFE completes with PC = nnn + V0 and nothing else but LASTKEYS written; a
larger sum halts with PC_OUT_OF_RANGE of the whole sum. (Rejecting the sum is the spec's own choice, D7.)
(That an odd sum is legal is D8, assumption 10; D7 is assumption 13.) (LASTKEYS is D11, assumption 11.)
(R175, assumption 10, assumption 13, R124, R125, assumption 11.) -/
def Obligations.JumpV0AddsWithoutMask : Prop :=
  ∀ (nnn : Addr12) (s : State),
    (nnn.toNat + (s.reg 0x0#4).toNat ≤ 0xFFE →
      ∃ t : State, Completes (.jpV0 nnn) s t (nnn.toNat + (s.reg 0x0#4).toNat) ∧
        t = { s with pc := t.pc, lastKeys := t.lastKeys }) ∧
    (0xFFE < nnn.toNat + (s.reg 0x0#4).toNat →
      Faults (.jpV0 nnn) s (.pcOutOfRange (nnn.toNat + (s.reg 0x0#4).toNat)))

/-- With pc + 2 <= 0xFFE they complete: Vx becomes kk, or (Vx + kk) mod 256, every other register (VF too,
unless x = 0xF) as it was; beyond that pc they halt with PC_OUT_OF_RANGE. (PC_OUT_OF_RANGE is the spec's
own choice D7, assumption 13; LASTKEYS is D11, assumption 11.) (R190, R191, R124, R125, assumption 11,
assumption 13.) -/
def Obligations.ImmediatesLoadAndAdd : Prop :=
  ∀ (x : Nibble) (kk : Byte) (s : State),
    (s.pc.toNat + 2 ≤ 0xFFE →
      (∃ t : State, Completes (.ldImm x kk) s t (s.pc.toNat + 2) ∧
        t.reg x = kk ∧ ∀ r, r ≠ x → t.reg r = s.reg r) ∧
      (∃ t : State, Completes (.addImm x kk) s t (s.pc.toNat + 2) ∧
        (t.reg x).toNat = ((s.reg x).toNat + kk.toNat) % 256 ∧ ∀ r, r ≠ x → t.reg r = s.reg r)) ∧
    (0xFFE < s.pc.toNat + 2 →
      Faults (.ldImm x kk) s (.pcOutOfRange (s.pc.toNat + 2)) ∧
      Faults (.addImm x kk) s (.pcOutOfRange (s.pc.toNat + 2)))

/-- With pc + 2 <= 0xFFE they complete: bit k of Vx becomes bit k of Vy, or the OR, AND, XOR of bit k of Vx
and Vy, and every other register, VF too, is as it was; beyond that pc they halt with PC_OUT_OF_RANGE.
(PC_OUT_OF_RANGE is the spec's own choice D7, assumption 13; LASTKEYS is D11, assumption 11.) (R193,
R194, R195, R196, R124, R125, assumption 11, assumption 13.) -/
def Obligations.CopyAndLogicWriteOnlyVx : Prop :=
  ∀ (x y : Nibble) (s : State) (i : Instr) (f : Bool → Bool → Bool),
    (i = .ldReg x y ∧ f = fun _ b => b) ∨ (i = .orReg x y ∧ f = fun a b => a || b) ∨
    (i = .andReg x y ∧ f = fun a b => a && b) ∨ (i = .xorReg x y ∧ f = fun a b => a != b) →
    (s.pc.toNat + 2 ≤ 0xFFE → ∃ t : State, Completes i s t (s.pc.toNat + 2) ∧
      (∀ k < 8, (t.reg x).getLsbD k = f ((s.reg x).getLsbD k) ((s.reg y).getLsbD k)) ∧
      ∀ r, r ≠ x → t.reg r = s.reg r) ∧
    (0xFFE < s.pc.toNat + 2 → Faults i s (.pcOutOfRange (s.pc.toNat + 2)))

/-- With pc + 2 <= 0xFFE it completes: VF is 1 if Vx + Vy exceeds 255 as an unbounded sum, else 0, also when
x = 0xF and whatever the write order; Vx, for x other than 0xF, is the sum mod 256; the operands are the
values at the start; other registers are as they were. Beyond that pc it halts with PC_OUT_OF_RANGE.
(PC_OUT_OF_RANGE is the spec's own choice D7, assumption 13; LASTKEYS is D11, assumption 11.) (R197,
R204, R124, R125, assumption 11, assumption 13.) -/
def Obligations.AddSetsCarry : Prop :=
  ∀ (x y : Nibble) (s : State),
    (s.pc.toNat + 2 ≤ 0xFFE → ∃ t : State, Completes (.addReg x y) s t (s.pc.toNat + 2) ∧
      t.reg 0xF#4 = (if 255 < (s.reg x).toNat + (s.reg y).toNat then 1#8 else 0#8) ∧
      (x ≠ 0xF#4 → (t.reg x).toNat = ((s.reg x).toNat + (s.reg y).toNat) % 256) ∧
      ∀ r, r ≠ x → r ≠ 0xF#4 → t.reg r = s.reg r) ∧
    (0xFFE < s.pc.toNat + 2 → Faults (.addReg x y) s (.pcOutOfRange (s.pc.toNat + 2)))

/-- With a and b the minuend and subtrahend at the start (Vx, Vy for SUB; Vy, Vx for SUBN) and pc + 2 <=
0xFFE: Vx becomes (a - b) mod 256 and VF becomes 1 if a >= b else 0; when x = 0xF, VF ends as the
difference under TABLE_ORDER and as the flag under FLAG_LAST. Beyond that pc they halt with
PC_OUT_OF_RANGE. (The write order when x = 0xF is the spec's own choice D4, R204, assumption 1.)
(PC_OUT_OF_RANGE is the spec's own choice D7, assumption 13; LASTKEYS is D11, assumption 11.) (R198,
R200, R204, assumption 1, R124, R125, assumption 11, assumption 13.) -/
def Obligations.SubtractionsSetNoBorrow : Prop :=
  ∀ (x y : Nibble) (s : State) (i : Instr) (a b : Byte),
    (i = .sub x y ∧ a = s.reg x ∧ b = s.reg y) ∨ (i = .subn x y ∧ a = s.reg y ∧ b = s.reg x) →
    let f : Byte := if b.toNat ≤ a.toNat then 1#8 else 0#8
    let d : Nat := (a.toNat + 256 - b.toNat) % 256
    (s.pc.toNat + 2 ≤ 0xFFE → ∃ t : State, Completes i s t (s.pc.toNat + 2) ∧
      (x ≠ 0xF#4 → (t.reg x).toNat = d ∧ t.reg 0xF#4 = f) ∧
      (x = 0xF#4 → s.params.vfWriteOrder = .tableOrder → (t.reg 0xF#4).toNat = d) ∧
      (x = 0xF#4 → s.params.vfWriteOrder = .flagLast → t.reg 0xF#4 = f) ∧
      ∀ r, r ≠ x → r ≠ 0xF#4 → t.reg r = s.reg r) ∧
    (0xFFE < s.pc.toNat + 2 → Faults i s (.pcOutOfRange (s.pc.toNat + 2)))

/-- With v the start value of Vy (SHIFT_SOURCE = Y) or Vx (X) and pc + 2 <= 0xFFE: SHR writes v div 2 and bit
0, SHL writes 2v mod 256 and bit 7; when x = 0xF, VF ends as the shifted value under TABLE_ORDER and as
the bit under FLAG_LAST. Beyond that pc they halt with PC_OUT_OF_RANGE. (The source register is the
spec's own choice D5, R202, and the write order when x = 0xF is D4, R204, both assumption 1.)
(PC_OUT_OF_RANGE is the spec's own choice D7, assumption 13; LASTKEYS is D11, assumption 11.) (R199,
R201, R202, R204, assumption 1, R124, R125, assumption 11, assumption 13.) -/
def Obligations.ShiftsSetTheBitShiftedOut : Prop :=
  ∀ (x y : Nibble) (s : State) (i : Instr) (v f : Byte) (d : Nat),
    (s.params.shiftSource = .y ∧ v = s.reg y) ∨ (s.params.shiftSource = .x ∧ v = s.reg x) →
    (i = .shr x y ∧ d = v.toNat / 2 ∧ f.toNat = v.toNat % 2) ∨
    (i = .shl x y ∧ d = 2 * v.toNat % 256 ∧ f.toNat = v.toNat / 128) →
    (s.pc.toNat + 2 ≤ 0xFFE → ∃ t : State, Completes i s t (s.pc.toNat + 2) ∧
      (x ≠ 0xF#4 → (t.reg x).toNat = d ∧ t.reg 0xF#4 = f) ∧
      (x = 0xF#4 → s.params.vfWriteOrder = .tableOrder → (t.reg 0xF#4).toNat = d) ∧
      (x = 0xF#4 → s.params.vfWriteOrder = .flagLast → t.reg 0xF#4 = f) ∧
      ∀ r, r ≠ x → r ≠ 0xF#4 → t.reg r = s.reg r) ∧
    (0xFFE < s.pc.toNat + 2 → Faults i s (.pcOutOfRange (s.pc.toNat + 2)))

/-- With pc + 2 <= 0xFFE RND completes: Vx is the next free value AND kk, so 0 for kk = 0 and the value
itself for kk = 0xFF, exactly one draw is taken, and every other register is as it was. It holds whatever
the free value is; the draw counter is the model's own (assumption 3). (One draw per execution under no
law is the spec's own choice D26, assumption 3; LASTKEYS is D11, assumption 11.) (R203, assumption 3,
R125, assumption 11.) -/
def Obligations.RandomByteIsMasked : Prop :=
  ∀ (x : Nibble) (kk : Byte) (s : State), s.pc.toNat + 2 ≤ 0xFFE →
    ∃ t : State, Completes (.rnd x kk) s t (s.pc.toNat + 2) ∧
      t.reg x = Config.randByte s.draws &&& kk ∧ (kk = 0#8 → t.reg x = 0#8) ∧
      (kk = 0xFF#8 → t.reg x = Config.randByte s.draws) ∧ t.draws = s.draws + 1 ∧
      ∀ r, r ≠ x → t.reg r = s.reg r

/-- With n = 0 or I + n <= 0x1000: when pc + 2 exceeds 0xFFE, Dxyn halts with PC_OUT_OF_RANGE(pc + 2), else
it completes: pixel (r, c) is flipped exactly when some row i and column j of the sprite has a bit of 1
and (Vy + i) mod 32 = r, (Vx + j) mod 64 = c, and kept otherwise; VF is 1 if some sprite bit of 1 lands
on a pixel that was set, else 0; REDRAW is 1; every other register is as it was. Coordinates are the
start values, also when x or y is 0xF. (Bit 7 as the leftmost pixel is the spec's own choice, D19,
assumption 12; PC_OUT_OF_RANGE is D7, assumption 13; the reading of n = 0 is D20, assumption 16.)
(LASTKEYS is D11, assumption 11.) (R124, R142, R143, R144, R145, R146, assumption 12, assumption 13,
assumption 16, assumption 11.) -/
def Obligations.DrawXorsTheSpriteAndReportsCollision : Prop :=
  ∀ (x y n : Nibble) (s : State), n.toNat = 0 ∨ s.i.toNat + n.toNat ≤ 0x1000 →
    (s.pc.toNat + 2 ≤ 0xFFE → ∃ t : State, Completes (.drw x y n) s t (s.pc.toNat + 2) ∧
      (∀ r < 32, ∀ c < 64,
        (SpriteCovers s x y n r c → t.disp.pixel r c = !s.disp.pixel r c) ∧
        (¬SpriteCovers s x y n r c → t.disp.pixel r c = s.disp.pixel r c)) ∧
      (SpriteCollides s x y n → t.reg 0xF#4 = 1#8) ∧
      (¬SpriteCollides s x y n → t.reg 0xF#4 = 0#8) ∧ t.redraw = true ∧
      ∀ r, r ≠ 0xF#4 → t.reg r = s.reg r) ∧
    (0xFFE < s.pc.toNat + 2 → Faults (.drw x y n) s (.pcOutOfRange (s.pc.toNat + 2)))

/-- Dxyn with n = 0 and pc + 2 <= 0xFFE completes for every I: DISP as it was, VF = 0, REDRAW = 1. (The
reading of n = 0 is the spec's own choice, D20, assumption 16; LASTKEYS is D11, assumption 11.) (R146,
assumption 11, assumption 16.) -/
def Obligations.DrawOfNoRowsReadsNothing : Prop :=
  ∀ (x y : Nibble) (s : State), s.pc.toNat + 2 ≤ 0xFFE →
    ∃ t : State, Completes (.drw x y 0x0#4) s t (s.pc.toNat + 2) ∧
      t.disp = s.disp ∧ t.reg 0xF#4 = 0#8 ∧ t.redraw = true ∧ ∀ r, r ≠ 0xF#4 → t.reg r = s.reg r

/-- For x and y other than 0xF, if Dxyn completes from s in t and again from t in u, then DISP in u is DISP
in s; and if every pixel of s was 0 and the sprite has a bit of 1, VF is 0 in t and 1 in u. (R142, R143.) -/
def Obligations.DrawingTwiceErases : Prop :=
  ∀ (x y n : Nibble) (s t u : State), x ≠ 0xF#4 → y ≠ 0xF#4 → s.run = .running →
    exec (.drw x y n) s = .next t → t.run = .running →
    exec (.drw x y n) t = .next u → u.run = .running →
    u.disp = s.disp ∧
    ((∀ r < 32, ∀ c < 64, s.disp.pixel r c = false) →
      (∃ k < n.toNat, s.mem.read (s.i.toNat + k) ≠ 0#8) → t.reg 0xF#4 = 0#8 ∧ u.reg 0xF#4 = 1#8)

/-- With pc + 2 <= 0xFFE they complete with I = nnn, (I + Vx) mod 0x10000 with no fault and no flag, or 5 *
Vx for every Vx up to 0xFF, and nothing else but PC and LASTKEYS written; beyond that pc they halt with
PC_OUT_OF_RANGE. (I beyond 0xFFF is the spec's own choice D9, assumption 14; PC_OUT_OF_RANGE is the
spec's own choice D7, assumption 13; LASTKEYS is D11, assumption 11.) (R230, R231, R232, R233, assumption
13, assumption 14, assumption 11.) -/
def Obligations.IndexInstructionsSetI : Prop :=
  ∀ (x : Nibble) (nnn : Addr12) (s : State) (i : Instr) (n : Nat),
    (i = .ldI nnn ∧ n = nnn.toNat) ∨
    (i = .addIVx x ∧ n = (s.i.toNat + (s.reg x).toNat) % 0x10000) ∨
    (i = .ldFVx x ∧ n = 5 * (s.reg x).toNat) →
    (s.pc.toNat + 2 ≤ 0xFFE → ∃ t : State, Completes i s t (s.pc.toNat + 2) ∧ t.i.toNat = n ∧
      t = { s with i := t.i, pc := t.pc, lastKeys := t.lastKeys }) ∧
    (0xFFE < s.pc.toNat + 2 → Faults i s (.pcOutOfRange (s.pc.toNat + 2)))

/-- From a state whose memory is canonical, with I + 2 <= 0xFFF and pc + 2 <= 0xFFE, Fx33 completes: the
three bytes are digits of at most 9 (the first at most 2) that spell Vx in decimal, every other byte
reads as before, all else but PC and LASTKEYS (VF and I too) is as it was. I above 0xFFD halts with
MEM_OUT_OF_BOUNDS, else a pc beyond with PC_OUT_OF_RANGE. (That an access above 0xFFF is rejected is the
spec's own choice D9, assumption 14; that this fault comes before PC_OUT_OF_RANGE and names the lowest
address is D14, assumption 13; PC_OUT_OF_RANGE is D7, assumption 13; LASTKEYS is D11, assumption 11. The
premise that memory is canonical is the form of assumption 5.) (R234, assumption 5, assumption 11,
assumption 13, assumption 14.) -/
def Obligations.DecimalDigitsAreStored : Prop :=
  ∀ (x : Nibble) (s : State), s.mem.wf = true →
    (s.i.toNat + 2 ≤ 0xFFF → s.pc.toNat + 2 ≤ 0xFFE →
      ∃ t : State, Completes (.ldBVx x) s t (s.pc.toNat + 2) ∧
        (∃ h z u : Nat, h ≤ 2 ∧ z ≤ 9 ∧ u ≤ 9 ∧ 100 * h + 10 * z + u = (s.reg x).toNat ∧
          (t.mem.read s.i.toNat).toNat = h ∧ (t.mem.read (s.i.toNat + 1)).toNat = z ∧
          (t.mem.read (s.i.toNat + 2)).toNat = u) ∧
        (∀ a, a < s.i.toNat ∨ s.i.toNat + 2 < a → t.mem.read a = s.mem.read a) ∧
        t = { s with mem := t.mem, pc := t.pc, lastKeys := t.lastKeys }) ∧
    (0xFFD < s.i.toNat → Faults (.ldBVx x) s (.memOutOfBounds (max s.i.toNat 0x1000))) ∧
    (s.i.toNat + 2 ≤ 0xFFF → 0xFFE < s.pc.toNat + 2 →
      Faults (.ldBVx x) s (.pcOutOfRange (s.pc.toNat + 2)))

/-- From a state whose memory is canonical, with I + x <= 0xFFF and pc + 2 <= 0xFFE, Fx55 completes: for k up
to x the byte at I + k is Vk, every other byte reads as before, all else but PC and LASTKEYS (VF and I
too) is as it was. I + x above 0xFFF halts with MEM_OUT_OF_BOUNDS(max(I, 0x1000)), else a pc beyond with
PC_OUT_OF_RANGE. (That an access above 0xFFF is rejected is the spec's own choice D9, assumption 14; that
this fault comes before PC_OUT_OF_RANGE and names the lowest address is D14, assumption 13;
PC_OUT_OF_RANGE is D7, assumption 13; LASTKEYS is D11, assumption 11. The premise that memory is
canonical is the form of assumption 5.) (R236, assumption 5, assumption 11, assumption 13, assumption
14.) -/
def Obligations.RegistersAreStored : Prop :=
  ∀ (x : Nibble) (s : State), s.mem.wf = true →
    (s.i.toNat + x.toNat ≤ 0xFFF → s.pc.toNat + 2 ≤ 0xFFE →
      ∃ t : State, Completes (.ldMemVx x) s t (s.pc.toNat + 2) ∧
        (∀ k : Nibble, k.toNat ≤ x.toNat → t.mem.read (s.i.toNat + k.toNat) = s.reg k) ∧
        (∀ a, a < s.i.toNat ∨ s.i.toNat + x.toNat < a → t.mem.read a = s.mem.read a) ∧
        t = { s with mem := t.mem, pc := t.pc, lastKeys := t.lastKeys }) ∧
    (0xFFF < s.i.toNat + x.toNat →
      Faults (.ldMemVx x) s (.memOutOfBounds (max s.i.toNat 0x1000))) ∧
    (s.i.toNat + x.toNat ≤ 0xFFF → 0xFFE < s.pc.toNat + 2 →
      Faults (.ldMemVx x) s (.pcOutOfRange (s.pc.toNat + 2)))

/-- With I + x <= 0xFFF and pc + 2 <= 0xFFE Fx65 completes: for k up to x, Vk is the byte at I + k, registers
above x are as they were, I, memory and all else but PC and LASTKEYS too. I + x above 0xFFF halts with
MEM_OUT_OF_BOUNDS(max(I, 0x1000)) and loads nothing, else a pc beyond with PC_OUT_OF_RANGE. (That an
access above 0xFFF is rejected is the spec's own choice D9, assumption 14; that this fault comes before
PC_OUT_OF_RANGE and names the lowest address is D14, assumption 13; PC_OUT_OF_RANGE is D7, assumption 13;
LASTKEYS is D11, assumption 11.) (R237, assumption 11, assumption 13, assumption 14.) -/
def Obligations.RegistersAreLoaded : Prop :=
  ∀ (x : Nibble) (s : State),
    (s.i.toNat + x.toNat ≤ 0xFFF → s.pc.toNat + 2 ≤ 0xFFE →
      ∃ t : State, Completes (.ldVxMem x) s t (s.pc.toNat + 2) ∧
        (∀ k : Nibble, k.toNat ≤ x.toNat → t.reg k = s.mem.read (s.i.toNat + k.toNat)) ∧
        (∀ k : Nibble, x.toNat < k.toNat → t.reg k = s.reg k) ∧
        t = { s with v := t.v, pc := t.pc, lastKeys := t.lastKeys }) ∧
    (0xFFF < s.i.toNat + x.toNat →
      Faults (.ldVxMem x) s (.memOutOfBounds (max s.i.toNat 0x1000))) ∧
    (s.i.toNat + x.toNat ≤ 0xFFF → 0xFFE < s.pc.toNat + 2 →
      Faults (.ldVxMem x) s (.pcOutOfRange (s.pc.toNat + 2)))

/-- If Fx55 completes from a state with canonical memory and leaves t, then from every state u with the
memory and I of t in which Fx65 with the same x completes in w, each of V0..Vx in w is what it was when
it was stored. (The premise that memory is canonical is the form of assumption 5.) (R69, R236, R237,
R238, assumption 5.) -/
def Obligations.StoredRegistersLoadBack : Prop :=
  ∀ (x : Nibble) (s t u w : State), s.mem.wf = true → s.run = .running →
    exec (.ldMemVx x) s = .next t → t.run = .running →
    u.mem = t.mem → u.i = t.i → u.run = .running → exec (.ldVxMem x) u = .next w → w.run = .running →
    ∀ k : Nibble, k.toNat ≤ x.toNat → w.reg k = s.reg k

/-- If Fx55 completes from a state with canonical memory and two of its stored bytes, Vk and Vk+1, lie at the
new pc and the address after it, then the next fetch gives the word of Vk and Vk+1. (The premise that
memory is canonical is the form of assumption 5.) (That the new pc may be odd is the spec's own choice
D8, assumption 10.) (R72, R351, assumption 5, assumption 10.) -/
def Obligations.StoredBytesAreFetchedNext : Prop :=
  ∀ (x k : Nibble) (s t : State), s.mem.wf = true → s.run = .running →
    exec (.ldMemVx x) s = .next t → t.run = .running → k.toNat < x.toNat →
    t.pc.toNat = s.i.toNat + k.toNat →
    t.fetch = some (wordOfBytes (s.reg k) (s.reg (k + 1#4)))

/-- With V[x] <= 0xF, SKP completes at pc + 4 when KEYS[Vx] is 1 and at pc + 2 when it is 0, SKNP the other
way round, writing nothing else but LASTKEYS; when that next pc exceeds 0xFFE they halt with
PC_OUT_OF_RANGE of it; V[x] above 0xF halts with KEY_INDEX_OUT_OF_RANGE. (Rejecting a key index above 0xF
is the spec's own choice D10, R262, assumption 15.) (PC_OUT_OF_RANGE and LASTKEYS are, behind the cited
rules, the spec's own choices D7 and D11.) (PC_OUT_OF_RANGE is the spec's own choice D7, assumption 13;
LASTKEYS is D11, assumption 11.) (R260, R261, R262, assumption 15, R124, R125, assumption 11, assumption
13.) -/
def Obligations.KeySkipsTestTheSnapshot : Prop :=
  ∀ (x : Nibble) (s : State) (i : Instr) (pressed : Bool),
    (i = .skp x ∧ pressed = true) ∨ (i = .sknp x ∧ pressed = false) →
    let next := if s.keys.getLsbD (s.reg x).toNat = pressed then s.pc.toNat + 4 else s.pc.toNat + 2
    ((s.reg x).toNat ≤ 0xF → next ≤ 0xFFE → ∃ t : State, Completes i s t next ∧
      t = { s with pc := t.pc, lastKeys := t.lastKeys }) ∧
    ((s.reg x).toNat ≤ 0xF → 0xFFE < next → Faults i s (.pcOutOfRange next)) ∧
    (0xF < (s.reg x).toNat → Faults i s (.keyIndexOutOfRange (s.reg x)))

/-- With pc + 2 <= 0xFFE: Fx07 completes with Vx = DT, Fx15 with DT = Vx, Fx18 with ST = Vx, and nothing else
but PC and LASTKEYS written; beyond that pc they halt with PC_OUT_OF_RANGE. (SOUND_ACTIVE, which R269
also speaks of, is in TimerTickCountsDownAndSignals.) (PC_OUT_OF_RANGE and LASTKEYS are, behind the cited
rules, the spec's own choices D7 and D11.) (PC_OUT_OF_RANGE is the spec's own choice D7, assumption 13;
LASTKEYS is D11, assumption 11.) (R263, R268, R269, R124, R125, assumption 11, assumption 13.) -/
def Obligations.TimersAreReadAndSet : Prop :=
  ∀ (x : Nibble) (s : State),
    (s.pc.toNat + 2 ≤ 0xFFE →
      (∃ t : State, Completes (.ldVxDt x) s t (s.pc.toNat + 2) ∧ t.reg x = s.dt ∧
        (∀ r, r ≠ x → t.reg r = s.reg r) ∧
        t = { s with v := t.v, pc := t.pc, lastKeys := t.lastKeys }) ∧
      (∃ t : State, Completes (.ldDtVx x) s t (s.pc.toNat + 2) ∧
        t = { s with dt := s.reg x, pc := t.pc, lastKeys := t.lastKeys }) ∧
      (∃ t : State, Completes (.ldStVx x) s t (s.pc.toNat + 2) ∧
        t = { s with st := s.reg x, pc := t.pc, lastKeys := t.lastKeys })) ∧
    (0xFFE < s.pc.toNat + 2 →
      Faults (.ldVxDt x) s (.pcOutOfRange (s.pc.toNat + 2)) ∧
      Faults (.ldDtVx x) s (.pcOutOfRange (s.pc.toNat + 2)) ∧
      Faults (.ldStVx x) s (.pcOutOfRange (s.pc.toNat + 2)))

/-- A key k goes down when KEYS[k] is 1 and LASTKEYS[k] is 0. With none, and pc <= 0xFFE, Fx0A leaves all but
LASTKEYS as it was, PC too. When k is the lowest key that goes down, it completes at pc + 2 with Vx = k
and every other register as it was, or halts with PC_OUT_OF_RANGE when pc + 2 exceeds 0xFFE. (The
transition, LASTKEYS and the lowest index are the spec's own choice, D11, assumption 11.)
(PC_OUT_OF_RANGE is the spec's own choice D7, assumption 13; parking without a mode is D12, assumption
11.) (R265, R266, R267, assumption 11, assumption 13.) -/
def Obligations.KeyWaitParksOrTakesTheLowestKey : Prop :=
  ∀ (x : Nibble) (s : State),
    let down : Nat → Prop := fun k => s.keys.getLsbD k = true ∧ s.lastKeys.getLsbD k = false
    ((∀ k < 16, ¬down k) → s.pc.toNat ≤ 0xFFE →
      exec (.ldVxK x) s = .next { s with lastKeys := s.keys }) ∧
    (∀ k < 16, down k → (∀ j < k, ¬down j) →
      (s.pc.toNat + 2 ≤ 0xFFE → ∃ t : State, Completes (.ldVxK x) s t (s.pc.toNat + 2) ∧
        (t.reg x).toNat = k ∧ (∀ r, r ≠ x → t.reg r = s.reg r) ∧
        t = { s with v := t.v, pc := t.pc, lastKeys := t.lastKeys }) ∧
      (0xFFE < s.pc.toNat + 2 → Faults (.ldVxK x) s (.pcOutOfRange (s.pc.toNat + 2))))

/-- LD Vx,kk, ADD Vx,kk, LD/OR/AND/XOR Vx,Vy, LD Vx,DT, LD Vx,K, RND: when exec answers a next state, only
Vx, PC, LASTKEYS, RUN (and for RND the draw counter) may differ. ADD/SUB/SHR/SUBN/SHL Vx,Vy: only Vx, VF,
PC, LASTKEYS, RUN. LD Vx,[I]: only V0..Vx, PC, LASTKEYS, RUN. Every byte of memory reads as before. (The
draw counter is the model's own, assumption 3.) (R22, R23, R130, assumption 3.) -/
def Obligations.RegisterFormsFrame : Prop :=
  ∀ (x y : Nibble) (kk : Byte) (i : Instr) (s t : State), exec i s = .next t →
    (i ∈ [.ldImm x kk, .addImm x kk, .ldReg x y, .orReg x y, .andReg x y, .xorReg x y, .ldVxDt x,
        .ldVxK x] →
      (∀ r, r ≠ x → t.reg r = s.reg r) ∧ SameMemory s t ∧
      t = { s with v := t.v, pc := t.pc, lastKeys := t.lastKeys, run := t.run }) ∧
    (i = .rnd x kk →
      (∀ r, r ≠ x → t.reg r = s.reg r) ∧ SameMemory s t ∧
      t = { s with v := t.v, pc := t.pc, lastKeys := t.lastKeys, run := t.run, draws := t.draws }) ∧
    (i ∈ [.addReg x y, .sub x y, .shr x y, .subn x y, .shl x y] →
      (∀ r, r ≠ x → r ≠ 0xF#4 → t.reg r = s.reg r) ∧ SameMemory s t ∧
      t = { s with v := t.v, pc := t.pc, lastKeys := t.lastKeys, run := t.run }) ∧
    (i = .ldVxMem x →
      (∀ r : Nibble, x.toNat < r.toNat → t.reg r = s.reg r) ∧ SameMemory s t ∧
      t = { s with v := t.v, pc := t.pc, lastKeys := t.lastKeys, run := t.run })

/-- SYS, JP, JP V0, the six skips: when exec answers a next state, only PC, LASTKEYS and RUN may differ.
CALL: also SP and the one slot STACK[SP]. RET: also SP, and no slot. No register is saved or restored,
every byte of memory reads as before. (That RET changes no slot is the spec's own choice D25, assumption
20.) (R27, R130, R167, R176, assumption 20.) -/
def Obligations.ControlFlowFrame : Prop :=
  ∀ (x y : Nibble) (kk : Byte) (nnn : Addr12) (i : Instr) (s t : State), exec i s = .next t →
    (i ∈ [.sys nnn, .jp nnn, .jpV0 nnn, .seImm x kk, .sneImm x kk, .seReg x y, .sneReg x y, .skp x,
        .sknp x] →
      SameMemory s t ∧ t = { s with pc := t.pc, lastKeys := t.lastKeys, run := t.run }) ∧
    (i = .call nnn →
      SameMemory s t ∧
      (∀ (j : Nat) (hj : j < 16), j ≠ s.sp.val → t.stack[j] = s.stack[j]) ∧
      t = { s with
        stack := t.stack, sp := t.sp, pc := t.pc, lastKeys := t.lastKeys, run := t.run }) ∧
    (i = .ret →
      SameMemory s t ∧
      t = { s with sp := t.sp, pc := t.pc, lastKeys := t.lastKeys, run := t.run })

/-- LD I, ADD I, LD F: when exec answers a next state, only I, PC, LASTKEYS and RUN may differ; LD DT, Vx:
only DT, PC, LASTKEYS, RUN; LD ST, Vx: only ST, PC, LASTKEYS, RUN. No general register (VF too) and no
byte of memory differs. (R25, R28, R130.) -/
def Obligations.IndexAndTimerFrame : Prop :=
  ∀ (x : Nibble) (nnn : Addr12) (i : Instr) (s t : State), exec i s = .next t →
    (i ∈ [.ldI nnn, .addIVx x, .ldFVx x] →
      SameMemory s t ∧ t = { s with i := t.i, pc := t.pc, lastKeys := t.lastKeys, run := t.run }) ∧
    (i = .ldDtVx x →
      SameMemory s t ∧ t = { s with dt := t.dt, pc := t.pc, lastKeys := t.lastKeys, run := t.run }) ∧
    (i = .ldStVx x →
      SameMemory s t ∧ t = { s with st := t.st, pc := t.pc, lastKeys := t.lastKeys, run := t.run })

/-- When exec answers a next state, only memory, PC, LASTKEYS and RUN may differ: no register, I included.
Every byte of memory outside I..I+2 for Fx33, outside I..I+x for Fx55, reads as before; the addresses are
I + k of the state the step began with. (R67, R68, R130, R238.) -/
def Obligations.StoreFrame : Prop :=
  ∀ (x : Nibble) (s t : State),
    (exec (.ldBVx x) s = .next t →
      (∀ a : Nat, a < s.iAddr 0 ∨ s.iAddr 2 < a → t.mem.read a = s.mem.read a) ∧
      t = { s with mem := t.mem, pc := t.pc, lastKeys := t.lastKeys, run := t.run }) ∧
    (exec (.ldMemVx x) s = .next t →
      (∀ a : Nat, a < s.iAddr 0 ∨ s.iAddr x.toNat < a → t.mem.read a = s.mem.read a) ∧
      t = { s with mem := t.mem, pc := t.pc, lastKeys := t.lastKeys, run := t.run })

/-- CLS: when exec answers a next state, only DISP, REDRAW, PC, LASTKEYS and RUN may differ. DRW: also VF,
and no other register. Every byte of memory reads as before. (R22, R30, R31, R130.) -/
def Obligations.DisplayFrame : Prop :=
  ∀ (x y n : Nibble) (s t : State),
    (exec .cls s = .next t →
      SameMemory s t ∧
      t = { s with
        disp := t.disp, redraw := t.redraw, pc := t.pc, lastKeys := t.lastKeys, run := t.run }) ∧
    (exec (.drw x y n) s = .next t →
      (∀ r, r ≠ 0xF#4 → t.reg r = s.reg r) ∧ SameMemory s t ∧
      t = { s with
        v := t.v, disp := t.disp, redraw := t.redraw, pc := t.pc, lastKeys := t.lastKeys,
        run := t.run })

/-- In every run over an infinite schedule in which STEP and TICK occur infinitely often and that never ends,
a state with REDRAW = 1 is followed by a state in which REDRAW_SIGNAL has been raised more often.
Fairness is the spec's own assumption (D15); the count of signals and the schedule are the model's own
form (assumptions 2 and 9). (That a tick clears REDRAW is D16, assumption 9.) (R305, R311, R312, R313,
assumption 2, assumption 9.) -/
def Obligations.FairInfiniteRunsSignalEveryRedraw : Prop :=
  ∀ (events : Nat → Event) (s t : State) (n : Nat), Fair events →
    (∀ k, ∃ u, runAt events s k = some u) → runAt events s n = some t → t.redraw = true →
    ∃ (m : Nat) (u : State), n < m ∧ runAt events s m = some u ∧ t.redrawSignals < u.redrawSignals
end

