-- ==== Sys2Proof/Laws/Codec.lean ====
section
/-! SUPPORT. The fields of each layout: a word laid out from its fields gives them back, and a word is the
layout of its own fields. What the counts of words rest on. -/

namespace Sys2Proof

/-- Each bit of two bit strings laid side by side. -/
theorem getLsbD_sideBySide {m n : Nat} (a : BitVec m) (b : BitVec n) (i : Nat) :
    (a ++ b).getLsbD i = if i < n then b.getLsbD i else a.getLsbD (i - n) := by
  simp [BitVec.getLsbD_append]

/-- Each bit of layout A. -/
theorem layoutA_getLsbD (op : Nibble) (nnn : Addr12) (i : Nat) :
    (layoutA op nnn).getLsbD i = if i < 12 then nnn.getLsbD i else op.getLsbD (i - 12) :=
  getLsbD_sideBySide op nnn i

/-- Each bit of layout XK. -/
theorem layoutXK_getLsbD (op x : Nibble) (kk : Byte) (i : Nat) :
    (layoutXK op x kk).getLsbD i =
      if i < 8 then kk.getLsbD i
      else if i - 8 < 4 then x.getLsbD (i - 8) else op.getLsbD (i - 8 - 4) := by
  refine (getLsbD_sideBySide (op ++ x) kk i).trans ?_
  congr 1
  exact getLsbD_sideBySide op x (i - 8)

/-- Each bit of layout XYN. -/
theorem layoutXYN_getLsbD (op x y n : Nibble) (i : Nat) :
    (layoutXYN op x y n).getLsbD i =
      if i < 4 then n.getLsbD i
      else if i - 4 < 4 then y.getLsbD (i - 4)
      else if i - 4 - 4 < 4 then x.getLsbD (i - 4 - 4) else op.getLsbD (i - 4 - 4 - 4) := by
  refine (getLsbD_sideBySide (op ++ x ++ y) n i).trans ?_
  congr 1
  refine (getLsbD_sideBySide (op ++ x) y (i - 4)).trans ?_
  congr 1
  exact getLsbD_sideBySide op x (i - 4 - 4)

theorem fieldOp_getLsbD (w : Word) (i : Nat) (h : i < 4) : (fieldOp w).getLsbD i = w.getLsbD (12 + i) := by
  simp [fieldOp, h]

theorem fieldX_getLsbD (w : Word) (i : Nat) (h : i < 4) : (fieldX w).getLsbD i = w.getLsbD (8 + i) := by
  simp [fieldX, h]

theorem fieldY_getLsbD (w : Word) (i : Nat) (h : i < 4) : (fieldY w).getLsbD i = w.getLsbD (4 + i) := by
  simp [fieldY, h]

theorem fieldN_getLsbD (w : Word) (i : Nat) (h : i < 4) : (fieldN w).getLsbD i = w.getLsbD i := by
  simp [fieldN, h]

theorem fieldKK_getLsbD (w : Word) (i : Nat) (h : i < 8) : (fieldKK w).getLsbD i = w.getLsbD i := by
  simp [fieldKK, h]

theorem fieldNNN_getLsbD (w : Word) (i : Nat) (h : i < 12) : (fieldNNN w).getLsbD i = w.getLsbD i := by
  simp [fieldNNN, h]

@[simp] theorem fieldOp_layoutA (op : Nibble) (nnn : Addr12) : fieldOp (layoutA op nnn) = op := by
  apply BitVec.eq_of_getLsbD_eq
  intro i hi
  rw [fieldOp_getLsbD _ _ hi, layoutA_getLsbD, if_neg (by omega), Nat.add_sub_cancel_left]

@[simp] theorem fieldNNN_layoutA (op : Nibble) (nnn : Addr12) : fieldNNN (layoutA op nnn) = nnn := by
  apply BitVec.eq_of_getLsbD_eq
  intro i hi
  rw [fieldNNN_getLsbD _ _ hi, layoutA_getLsbD, if_pos hi]

@[simp] theorem fieldOp_layoutXK (op x : Nibble) (kk : Byte) : fieldOp (layoutXK op x kk) = op := by
  apply BitVec.eq_of_getLsbD_eq
  intro i hi
  rw [fieldOp_getLsbD _ _ hi, layoutXK_getLsbD, if_neg (by omega), if_neg (by omega)]
  congr 1
  omega

@[simp] theorem fieldX_layoutXK (op x : Nibble) (kk : Byte) : fieldX (layoutXK op x kk) = x := by
  apply BitVec.eq_of_getLsbD_eq
  intro i hi
  rw [fieldX_getLsbD _ _ hi, layoutXK_getLsbD, if_neg (by omega), if_pos (by omega)]
  congr 1
  omega

@[simp] theorem fieldKK_layoutXK (op x : Nibble) (kk : Byte) : fieldKK (layoutXK op x kk) = kk := by
  apply BitVec.eq_of_getLsbD_eq
  intro i hi
  rw [fieldKK_getLsbD _ _ hi, layoutXK_getLsbD, if_pos hi]

@[simp] theorem fieldOp_layoutXYN (op x y n : Nibble) : fieldOp (layoutXYN op x y n) = op := by
  apply BitVec.eq_of_getLsbD_eq
  intro i hi
  rw [fieldOp_getLsbD _ _ hi, layoutXYN_getLsbD, if_neg (by omega), if_neg (by omega), if_neg (by omega)]
  congr 1
  omega

@[simp] theorem fieldX_layoutXYN (op x y n : Nibble) : fieldX (layoutXYN op x y n) = x := by
  apply BitVec.eq_of_getLsbD_eq
  intro i hi
  rw [fieldX_getLsbD _ _ hi, layoutXYN_getLsbD, if_neg (by omega), if_neg (by omega), if_pos (by omega)]
  congr 1
  omega

@[simp] theorem fieldY_layoutXYN (op x y n : Nibble) : fieldY (layoutXYN op x y n) = y := by
  apply BitVec.eq_of_getLsbD_eq
  intro i hi
  rw [fieldY_getLsbD _ _ hi, layoutXYN_getLsbD, if_neg (by omega), if_pos (by omega)]
  congr 1
  omega

@[simp] theorem fieldN_layoutXYN (op x y n : Nibble) : fieldN (layoutXYN op x y n) = n := by
  apply BitVec.eq_of_getLsbD_eq
  intro i hi
  rw [fieldN_getLsbD _ _ hi, layoutXYN_getLsbD, if_pos hi]

/-- A word is layout A of its own fields. -/
theorem layoutA_fields (w : Word) : layoutA (fieldOp w) (fieldNNN w) = w := by
  apply BitVec.eq_of_getLsbD_eq
  intro i hi
  rw [layoutA_getLsbD]
  split
  · rw [fieldNNN_getLsbD _ _ (by omega)]
  · rw [fieldOp_getLsbD _ _ (by omega)]
    congr 1
    omega

/-- A word is layout XK of its own fields. -/
theorem layoutXK_fields (w : Word) : layoutXK (fieldOp w) (fieldX w) (fieldKK w) = w := by
  apply BitVec.eq_of_getLsbD_eq
  intro i hi
  rw [layoutXK_getLsbD]
  split
  · rw [fieldKK_getLsbD _ _ (by omega)]
  · split
    · rw [fieldX_getLsbD _ _ (by omega)]
      congr 1
      omega
    · rw [fieldOp_getLsbD _ _ (by omega)]
      congr 1
      omega

/-- A word is layout XYN of its own fields. -/
theorem layoutXYN_fields (w : Word) : layoutXYN (fieldOp w) (fieldX w) (fieldY w) (fieldN w) = w := by
  apply BitVec.eq_of_getLsbD_eq
  intro i hi
  rw [layoutXYN_getLsbD]
  split
  · rw [fieldN_getLsbD _ _ (by omega)]
  · split
    · rw [fieldY_getLsbD _ _ (by omega)]
      congr 1
      omega
    · split
      · rw [fieldX_getLsbD _ _ (by omega)]
        congr 1
        omega
      · rw [fieldOp_getLsbD _ _ (by omega)]
        congr 1
        omega

@[simp] theorem Decoded.isInvalid_instr (i : Instr) : (Decoded.instr i).isInvalid = false := rfl

@[simp] theorem Decoded.isInvalid_invalid (g : InvalidGroup) : (Decoded.invalid g).isInvalid = true := rfl

/-- The 4096 words of an op nibble are the INVALID ones and the valid ones. -/
theorem Machine.validCount_add_invalidCount (op : Nibble) :
    Machine.validCount op + Machine.invalidCount op = 4096 := by
  have h := List.length_eq_countP_add_countP (l := List.range 4096)
    (p := fun k => (decode (layoutA op (BitVec.ofNat 12 k))).isInvalid)
  simp only [List.length_range, Bool.not_eq_true, Bool.decide_eq_false] at h
  rw [Nat.add_comm]
  exact h.symm

end Sys2Proof
end

