-- ==== Sys2Proof/Laws/Memory.lean ====
section
/-! SUPPORT. The laws of memory: a read after a write, writes leave other places alone, every operation
keeps the canonical form. -/

namespace Sys2Proof.Machine

/-- What the canonical form says, as a proposition. -/
theorem Memory.wf_iff (m : Memory) :
    m.wf = true ↔
      (∀ c ∈ m, c.1 < 0x1000 ∧ c.2 ≠ Memory.unlisted c.1) ∧ m.Pairwise fun c d => c.1 < d.1 := by
  simp [Memory.wf]

@[simp] theorem Memory.wf_nil : Memory.wf [] = true := by decide

@[simp] theorem Memory.read_nil (a : Nat) : Memory.read [] a = Memory.unlisted a := rfl

theorem Memory.read_cons (c : Nat) (d : Byte) (m : Memory) (a : Nat) :
    Memory.read ((c, d) :: m) a = if a = c then d else Memory.read m a := rfl

/-- An address below every listed one reads as unlisted. -/
theorem Memory.read_of_lt (m : Memory) (a : Nat) (h : ∀ c ∈ m, a < c.1) :
    m.read a = Memory.unlisted a := by
  induction m with
  | nil => rfl
  | cons p m ih =>
    obtain ⟨c, d⟩ := p
    have hc : a < c := h (c, d) (by simp)
    rw [Memory.read_cons, if_neg (by omega)]
    exact ih fun e he => h e (by simp [he])

/-- Reading through the entry of a byte. -/
theorem Memory.read_entry_append (a : Nat) (b : Byte) (m : Memory) (k : Nat) :
    Memory.read (Memory.entry a b ++ m) k =
      if k = a ∧ b ≠ Memory.unlisted a then b else Memory.read m k := by
  unfold Memory.entry
  by_cases hb : b = Memory.unlisted a
  · simp [hb]
  · by_cases hk : k = a <;> simp [hb, hk, Memory.read_cons]

theorem Memory.read_put_same (m : Memory) (a : Nat) (b : Byte)
    (h : m.Pairwise fun c d => c.1 < d.1) : (m.put a b).read a = b := by
  induction m with
  | nil =>
    have := Memory.read_entry_append a b [] a
    simp only [List.append_nil] at this
    rw [Memory.put, this]
    by_cases hb : b = Memory.unlisted a <;> simp [hb]
  | cons p m ih =>
    obtain ⟨c, d⟩ := p
    have hp := List.pairwise_cons.mp h
    rw [Memory.put]
    split
    · rw [Memory.read_entry_append]
      by_cases hb : b = Memory.unlisted a
      · rw [if_neg (by simp [hb]), hb]
        apply Memory.read_of_lt
        intro e he
        rcases List.mem_cons.mp he with rfl | he
        · assumption
        · have := hp.1 e he; simp at this; omega
      · simp [hb]
    · split
      · subst_vars
        rw [Memory.read_entry_append]
        by_cases hb : b = Memory.unlisted c
        · rw [if_neg (by simp [hb]), hb]
          exact Memory.read_of_lt _ _ fun e he => hp.1 e he
        · simp [hb]
      · rw [Memory.read_cons, if_neg (by assumption)]
        exact ih hp.2

theorem Memory.read_put_ne (m : Memory) (a k : Nat) (b : Byte) (hk : k ≠ a) :
    (m.put a b).read k = m.read k := by
  induction m with
  | nil =>
    have := Memory.read_entry_append a b [] k
    simp only [List.append_nil] at this
    rw [Memory.put, this, if_neg (by simp [hk])]
  | cons p m ih =>
    obtain ⟨c, d⟩ := p
    rw [Memory.put]
    split
    · rw [Memory.read_entry_append, if_neg (by simp [hk])]
    · split
      · subst_vars
        rw [Memory.read_entry_append, if_neg (by simp [hk]), Memory.read_cons, if_neg hk]
      · rw [Memory.read_cons, Memory.read_cons, ih]

/-- A read after a write to the same place gives the byte written. -/
theorem Memory.read_write_same (m : Memory) (a : Nat) (b : Byte) (hm : m.wf = true)
    (ha : a < 0x1000) : (m.write a b).read a = b := by
  rw [Memory.write, if_pos ha]
  exact Memory.read_put_same m a b ((Memory.wf_iff m).mp hm).2

/-- A write leaves every other place alone. -/
theorem Memory.read_write_ne (m : Memory) (a k : Nat) (b : Byte) (hk : k ≠ a) :
    (m.write a b).read k = m.read k := by
  unfold Memory.write
  split
  · exact Memory.read_put_ne m a k b hk
  · rfl

/-- Every entry of a put is the new one or an old one. -/
theorem Memory.mem_put (m : Memory) (a : Nat) (b : Byte) (e : Host.Cell) (he : e ∈ m.put a b) :
    (e = (a, b) ∧ b ≠ Memory.unlisted a) ∨ e ∈ m := by
  have hent : ∀ e ∈ Memory.entry a b, e = (a, b) ∧ b ≠ Memory.unlisted a := by
    intro e he
    unfold Memory.entry at he
    split at he <;> simp_all
  induction m with
  | nil => exact .inl (hent e he)
  | cons p m ih =>
    obtain ⟨c, d⟩ := p
    rw [Memory.put] at he
    split at he
    · rcases List.mem_append.mp he with h | h
      · exact .inl (hent e h)
      · exact .inr h
    · split at he
      · rcases List.mem_append.mp he with h | h
        · exact .inl (hent e h)
        · exact .inr (List.mem_cons_of_mem _ h)
      · rcases List.mem_cons.mp he with h | h
        · exact .inr (by simp [h])
        · rcases ih h with h | h
          · exact .inl h
          · exact .inr (List.mem_cons_of_mem _ h)

theorem Memory.put_pairwise (m : Memory) (a : Nat) (b : Byte)
    (h : m.Pairwise fun c d => c.1 < d.1) : (m.put a b).Pairwise fun c d => c.1 < d.1 := by
  have hent : ∀ m' : Memory, m'.Pairwise (fun c d => c.1 < d.1) → (∀ e ∈ m', a < e.1) →
      (Memory.entry a b ++ m').Pairwise fun c d => c.1 < d.1 := by
    intro m' hm' hlt
    unfold Memory.entry
    split
    · simpa using hm'
    · simp only [List.cons_append, List.nil_append, List.pairwise_cons]
      exact ⟨fun e he => hlt e he, hm'⟩
  induction m with
  | nil =>
    have := hent [] List.Pairwise.nil (by simp)
    simpa [Memory.put] using this
  | cons p m ih =>
    obtain ⟨c, d⟩ := p
    have hp := List.pairwise_cons.mp h
    rw [Memory.put]
    split
    · rename_i hac
      apply hent _ h
      intro e he
      rcases List.mem_cons.mp he with rfl | he
      · exact hac
      · have := hp.1 e he; simp at this; omega
    · split
      · subst_vars
        exact hent _ hp.2 fun e he => hp.1 e he
      · refine List.pairwise_cons.mpr ⟨fun e he => ?_, ih hp.2⟩
        rcases Memory.mem_put m a b e he with ⟨rfl, -⟩ | h
        · simp; omega
        · exact hp.1 e h

/-- A write keeps the canonical form. -/
theorem Memory.write_wf (m : Memory) (a : Nat) (b : Byte) (hm : m.wf = true) :
    (m.write a b).wf = true := by
  unfold Memory.write
  split
  · rename_i ha
    obtain ⟨h1, h2⟩ := (Memory.wf_iff m).mp hm
    refine (Memory.wf_iff _).mpr ⟨fun e he => ?_, Memory.put_pairwise m a b h2⟩
    rcases Memory.mem_put m a b e he with ⟨rfl, hb⟩ | h
    · exact ⟨ha, hb⟩
    · exact h1 e h
  · exact hm

/-- Writing a block keeps the canonical form. -/
theorem Memory.writeBlock_wf (bs : List Byte) (m : Memory) (a : Nat) (hm : m.wf = true) :
    (m.writeBlock a bs).wf = true := by
  induction bs generalizing m a with
  | nil => exact hm
  | cons b bs ih => exact ih _ _ (Memory.write_wf m a b hm)

/-- Writing a block leaves every address outside it alone. -/
theorem Memory.read_writeBlock_out (bs : List Byte) (m : Memory) (a k : Nat)
    (hk : k < a ∨ a + bs.length ≤ k) : (m.writeBlock a bs).read k = m.read k := by
  induction bs generalizing m a with
  | nil => rfl
  | cons b bs ih =>
    simp only [List.length_cons] at hk
    rw [Memory.writeBlock, ih _ _ (by omega), Memory.read_write_ne _ _ _ _ (by omega)]

/-- After writing a block that lies in memory, each of its addresses reads as its byte. -/
theorem Memory.read_writeBlock_in (bs : List Byte) (m : Memory) (a k : Nat) (hm : m.wf = true)
    (hk : k < bs.length) (ha : a + bs.length ≤ 0x1000) :
    (m.writeBlock a bs).read (a + k) = bs[k] := by
  induction bs generalizing m a k with
  | nil => simp at hk
  | cons b bs ih =>
    simp only [List.length_cons] at hk ha
    rw [Memory.writeBlock]
    cases k with
    | zero =>
      rw [Nat.add_zero, Memory.read_writeBlock_out _ _ _ _ (by omega)]
      simpa using Memory.read_write_same m a b hm (by omega)
    | succ k =>
      have := ih (m.write a b) (a + 1) k (Memory.write_wf m a b hm) (by omega) (by omega)
      rw [show a + (k + 1) = a + 1 + k by omega, this]
      simp

end Sys2Proof.Machine
end

