-- ==== Sys2Proof/Laws/State.lean ====
section
/-! SUPPORT. One lemma per field per named update of the state, each true by unfolding the update once. -/

namespace Sys2Proof.Machine

/-! ### State.setReg -/

@[simp] theorem State.setReg_v (s : State) (x : Nibble) (b : Byte) : (s.setReg x b).v = s.v.set x.toNat b x.isLt := rfl

@[simp] theorem State.setReg_i (s : State) (x : Nibble) (b : Byte) : (s.setReg x b).i = s.i := rfl

@[simp] theorem State.setReg_pc (s : State) (x : Nibble) (b : Byte) : (s.setReg x b).pc = s.pc := rfl

@[simp] theorem State.setReg_stack (s : State) (x : Nibble) (b : Byte) : (s.setReg x b).stack = s.stack := rfl

@[simp] theorem State.setReg_sp (s : State) (x : Nibble) (b : Byte) : (s.setReg x b).sp = s.sp := rfl

@[simp] theorem State.setReg_dt (s : State) (x : Nibble) (b : Byte) : (s.setReg x b).dt = s.dt := rfl

@[simp] theorem State.setReg_st (s : State) (x : Nibble) (b : Byte) : (s.setReg x b).st = s.st := rfl

@[simp] theorem State.setReg_mem (s : State) (x : Nibble) (b : Byte) : (s.setReg x b).mem = s.mem := rfl

@[simp] theorem State.setReg_disp (s : State) (x : Nibble) (b : Byte) : (s.setReg x b).disp = s.disp := rfl

@[simp] theorem State.setReg_keys (s : State) (x : Nibble) (b : Byte) : (s.setReg x b).keys = s.keys := rfl

@[simp] theorem State.setReg_redraw (s : State) (x : Nibble) (b : Byte) : (s.setReg x b).redraw = s.redraw := rfl

@[simp] theorem State.setReg_lastKeys (s : State) (x : Nibble) (b : Byte) : (s.setReg x b).lastKeys = s.lastKeys := rfl

@[simp] theorem State.setReg_run (s : State) (x : Nibble) (b : Byte) : (s.setReg x b).run = s.run := rfl

@[simp] theorem State.setReg_params (s : State) (x : Nibble) (b : Byte) : (s.setReg x b).params = s.params := rfl

@[simp] theorem State.setReg_draws (s : State) (x : Nibble) (b : Byte) : (s.setReg x b).draws = s.draws := rfl

@[simp] theorem State.setReg_schedule (s : State) (x : Nibble) (b : Byte) : (s.setReg x b).schedule = s.schedule := rfl

@[simp] theorem State.setReg_redrawSignals (s : State) (x : Nibble) (b : Byte) : (s.setReg x b).redrawSignals = s.redrawSignals := rfl

/-! ### State.halt -/

@[simp] theorem State.halt_v (s : State) (k : FaultKind) (w : Option Word) : (s.halt k w).v = s.v := rfl

@[simp] theorem State.halt_i (s : State) (k : FaultKind) (w : Option Word) : (s.halt k w).i = s.i := rfl

@[simp] theorem State.halt_pc (s : State) (k : FaultKind) (w : Option Word) : (s.halt k w).pc = s.pc := rfl

@[simp] theorem State.halt_stack (s : State) (k : FaultKind) (w : Option Word) : (s.halt k w).stack = s.stack := rfl

@[simp] theorem State.halt_sp (s : State) (k : FaultKind) (w : Option Word) : (s.halt k w).sp = s.sp := rfl

@[simp] theorem State.halt_dt (s : State) (k : FaultKind) (w : Option Word) : (s.halt k w).dt = s.dt := rfl

@[simp] theorem State.halt_st (s : State) (k : FaultKind) (w : Option Word) : (s.halt k w).st = s.st := rfl

@[simp] theorem State.halt_mem (s : State) (k : FaultKind) (w : Option Word) : (s.halt k w).mem = s.mem := rfl

@[simp] theorem State.halt_disp (s : State) (k : FaultKind) (w : Option Word) : (s.halt k w).disp = s.disp := rfl

@[simp] theorem State.halt_keys (s : State) (k : FaultKind) (w : Option Word) : (s.halt k w).keys = s.keys := rfl

@[simp] theorem State.halt_redraw (s : State) (k : FaultKind) (w : Option Word) : (s.halt k w).redraw = s.redraw := rfl

@[simp] theorem State.halt_lastKeys (s : State) (k : FaultKind) (w : Option Word) : (s.halt k w).lastKeys = s.lastKeys := rfl

@[simp] theorem State.halt_run (s : State) (k : FaultKind) (w : Option Word) : (s.halt k w).run = .halted { kind := k, pc := s.pc, word := w } := rfl

@[simp] theorem State.halt_params (s : State) (k : FaultKind) (w : Option Word) : (s.halt k w).params = s.params := rfl

@[simp] theorem State.halt_draws (s : State) (k : FaultKind) (w : Option Word) : (s.halt k w).draws = s.draws := rfl

@[simp] theorem State.halt_schedule (s : State) (k : FaultKind) (w : Option Word) : (s.halt k w).schedule = s.schedule := rfl

@[simp] theorem State.halt_redrawSignals (s : State) (k : FaultKind) (w : Option Word) : (s.halt k w).redrawSignals = s.redrawSignals := rfl

/-! ### State.dropEvent -/

@[simp] theorem State.dropEvent_v (s : State) : (s.dropEvent).v = s.v := rfl

@[simp] theorem State.dropEvent_i (s : State) : (s.dropEvent).i = s.i := rfl

@[simp] theorem State.dropEvent_pc (s : State) : (s.dropEvent).pc = s.pc := rfl

@[simp] theorem State.dropEvent_stack (s : State) : (s.dropEvent).stack = s.stack := rfl

@[simp] theorem State.dropEvent_sp (s : State) : (s.dropEvent).sp = s.sp := rfl

@[simp] theorem State.dropEvent_dt (s : State) : (s.dropEvent).dt = s.dt := rfl

@[simp] theorem State.dropEvent_st (s : State) : (s.dropEvent).st = s.st := rfl

@[simp] theorem State.dropEvent_mem (s : State) : (s.dropEvent).mem = s.mem := rfl

@[simp] theorem State.dropEvent_disp (s : State) : (s.dropEvent).disp = s.disp := rfl

@[simp] theorem State.dropEvent_keys (s : State) : (s.dropEvent).keys = s.keys := rfl

@[simp] theorem State.dropEvent_redraw (s : State) : (s.dropEvent).redraw = s.redraw := rfl

@[simp] theorem State.dropEvent_lastKeys (s : State) : (s.dropEvent).lastKeys = s.lastKeys := rfl

@[simp] theorem State.dropEvent_run (s : State) : (s.dropEvent).run = s.run := rfl

@[simp] theorem State.dropEvent_params (s : State) : (s.dropEvent).params = s.params := rfl

@[simp] theorem State.dropEvent_draws (s : State) : (s.dropEvent).draws = s.draws := rfl

@[simp] theorem State.dropEvent_schedule (s : State) : (s.dropEvent).schedule = s.schedule.tail := rfl

@[simp] theorem State.dropEvent_redrawSignals (s : State) : (s.dropEvent).redrawSignals = s.redrawSignals := rfl

/-! ### timerTick -/

@[simp] theorem timerTick_v (s : State) : (timerTick s).v = s.v := rfl

@[simp] theorem timerTick_i (s : State) : (timerTick s).i = s.i := rfl

@[simp] theorem timerTick_pc (s : State) : (timerTick s).pc = s.pc := rfl

@[simp] theorem timerTick_stack (s : State) : (timerTick s).stack = s.stack := rfl

@[simp] theorem timerTick_sp (s : State) : (timerTick s).sp = s.sp := rfl

@[simp] theorem timerTick_dt (s : State) : (timerTick s).dt = countDown s.dt := rfl

@[simp] theorem timerTick_st (s : State) : (timerTick s).st = countDown s.st := rfl

@[simp] theorem timerTick_mem (s : State) : (timerTick s).mem = s.mem := rfl

@[simp] theorem timerTick_disp (s : State) : (timerTick s).disp = s.disp := rfl

@[simp] theorem timerTick_keys (s : State) : (timerTick s).keys = s.keys := rfl

@[simp] theorem timerTick_redraw (s : State) : (timerTick s).redraw = false := rfl

@[simp] theorem timerTick_lastKeys (s : State) : (timerTick s).lastKeys = s.lastKeys := rfl

@[simp] theorem timerTick_run (s : State) : (timerTick s).run = s.run := rfl

@[simp] theorem timerTick_params (s : State) : (timerTick s).params = s.params := rfl

@[simp] theorem timerTick_draws (s : State) : (timerTick s).draws = s.draws := rfl

@[simp] theorem timerTick_schedule (s : State) : (timerTick s).schedule = s.schedule := rfl

@[simp] theorem timerTick_redrawSignals (s : State) : (timerTick s).redrawSignals = if s.redraw then s.redrawSignals + 1 else s.redrawSignals := rfl

/-! ### latchKeys -/

@[simp] theorem latchKeys_v (ks : BitVec 16) (s : State) : (latchKeys ks s).v = s.v := rfl

@[simp] theorem latchKeys_i (ks : BitVec 16) (s : State) : (latchKeys ks s).i = s.i := rfl

@[simp] theorem latchKeys_pc (ks : BitVec 16) (s : State) : (latchKeys ks s).pc = s.pc := rfl

@[simp] theorem latchKeys_stack (ks : BitVec 16) (s : State) : (latchKeys ks s).stack = s.stack := rfl

@[simp] theorem latchKeys_sp (ks : BitVec 16) (s : State) : (latchKeys ks s).sp = s.sp := rfl

@[simp] theorem latchKeys_dt (ks : BitVec 16) (s : State) : (latchKeys ks s).dt = s.dt := rfl

@[simp] theorem latchKeys_st (ks : BitVec 16) (s : State) : (latchKeys ks s).st = s.st := rfl

@[simp] theorem latchKeys_mem (ks : BitVec 16) (s : State) : (latchKeys ks s).mem = s.mem := rfl

@[simp] theorem latchKeys_disp (ks : BitVec 16) (s : State) : (latchKeys ks s).disp = s.disp := rfl

@[simp] theorem latchKeys_keys (ks : BitVec 16) (s : State) : (latchKeys ks s).keys = ks := rfl

@[simp] theorem latchKeys_redraw (ks : BitVec 16) (s : State) : (latchKeys ks s).redraw = s.redraw := rfl

@[simp] theorem latchKeys_lastKeys (ks : BitVec 16) (s : State) : (latchKeys ks s).lastKeys = s.lastKeys := rfl

@[simp] theorem latchKeys_run (ks : BitVec 16) (s : State) : (latchKeys ks s).run = s.run := rfl

@[simp] theorem latchKeys_params (ks : BitVec 16) (s : State) : (latchKeys ks s).params = s.params := rfl

@[simp] theorem latchKeys_draws (ks : BitVec 16) (s : State) : (latchKeys ks s).draws = s.draws := rfl

@[simp] theorem latchKeys_schedule (ks : BitVec 16) (s : State) : (latchKeys ks s).schedule = s.schedule := rfl

@[simp] theorem latchKeys_redrawSignals (ks : BitVec 16) (s : State) : (latchKeys ks s).redrawSignals = s.redrawSignals := rfl

/-! ### The two pairs of writes to Vx and VF -/

@[simp] theorem State.writeRegThenFlag_i (s : State) (x : Nibble) (d f : Byte) : (s.writeRegThenFlag x d f).i = s.i := rfl

@[simp] theorem State.writeFlagAndReg_i (s : State) (x : Nibble) (f d : Byte) : (s.writeFlagAndReg x f d).i = s.i := by
  unfold State.writeFlagAndReg
  split <;> rfl

@[simp] theorem State.writeRegThenFlag_pc (s : State) (x : Nibble) (d f : Byte) : (s.writeRegThenFlag x d f).pc = s.pc := rfl

@[simp] theorem State.writeFlagAndReg_pc (s : State) (x : Nibble) (f d : Byte) : (s.writeFlagAndReg x f d).pc = s.pc := by
  unfold State.writeFlagAndReg
  split <;> rfl

@[simp] theorem State.writeRegThenFlag_stack (s : State) (x : Nibble) (d f : Byte) : (s.writeRegThenFlag x d f).stack = s.stack := rfl

@[simp] theorem State.writeFlagAndReg_stack (s : State) (x : Nibble) (f d : Byte) : (s.writeFlagAndReg x f d).stack = s.stack := by
  unfold State.writeFlagAndReg
  split <;> rfl

@[simp] theorem State.writeRegThenFlag_sp (s : State) (x : Nibble) (d f : Byte) : (s.writeRegThenFlag x d f).sp = s.sp := rfl

@[simp] theorem State.writeFlagAndReg_sp (s : State) (x : Nibble) (f d : Byte) : (s.writeFlagAndReg x f d).sp = s.sp := by
  unfold State.writeFlagAndReg
  split <;> rfl

@[simp] theorem State.writeRegThenFlag_dt (s : State) (x : Nibble) (d f : Byte) : (s.writeRegThenFlag x d f).dt = s.dt := rfl

@[simp] theorem State.writeFlagAndReg_dt (s : State) (x : Nibble) (f d : Byte) : (s.writeFlagAndReg x f d).dt = s.dt := by
  unfold State.writeFlagAndReg
  split <;> rfl

@[simp] theorem State.writeRegThenFlag_st (s : State) (x : Nibble) (d f : Byte) : (s.writeRegThenFlag x d f).st = s.st := rfl

@[simp] theorem State.writeFlagAndReg_st (s : State) (x : Nibble) (f d : Byte) : (s.writeFlagAndReg x f d).st = s.st := by
  unfold State.writeFlagAndReg
  split <;> rfl

@[simp] theorem State.writeRegThenFlag_mem (s : State) (x : Nibble) (d f : Byte) : (s.writeRegThenFlag x d f).mem = s.mem := rfl

@[simp] theorem State.writeFlagAndReg_mem (s : State) (x : Nibble) (f d : Byte) : (s.writeFlagAndReg x f d).mem = s.mem := by
  unfold State.writeFlagAndReg
  split <;> rfl

@[simp] theorem State.writeRegThenFlag_disp (s : State) (x : Nibble) (d f : Byte) : (s.writeRegThenFlag x d f).disp = s.disp := rfl

@[simp] theorem State.writeFlagAndReg_disp (s : State) (x : Nibble) (f d : Byte) : (s.writeFlagAndReg x f d).disp = s.disp := by
  unfold State.writeFlagAndReg
  split <;> rfl

@[simp] theorem State.writeRegThenFlag_keys (s : State) (x : Nibble) (d f : Byte) : (s.writeRegThenFlag x d f).keys = s.keys := rfl

@[simp] theorem State.writeFlagAndReg_keys (s : State) (x : Nibble) (f d : Byte) : (s.writeFlagAndReg x f d).keys = s.keys := by
  unfold State.writeFlagAndReg
  split <;> rfl

@[simp] theorem State.writeRegThenFlag_redraw (s : State) (x : Nibble) (d f : Byte) : (s.writeRegThenFlag x d f).redraw = s.redraw := rfl

@[simp] theorem State.writeFlagAndReg_redraw (s : State) (x : Nibble) (f d : Byte) : (s.writeFlagAndReg x f d).redraw = s.redraw := by
  unfold State.writeFlagAndReg
  split <;> rfl

@[simp] theorem State.writeRegThenFlag_lastKeys (s : State) (x : Nibble) (d f : Byte) : (s.writeRegThenFlag x d f).lastKeys = s.lastKeys := rfl

@[simp] theorem State.writeFlagAndReg_lastKeys (s : State) (x : Nibble) (f d : Byte) : (s.writeFlagAndReg x f d).lastKeys = s.lastKeys := by
  unfold State.writeFlagAndReg
  split <;> rfl

@[simp] theorem State.writeRegThenFlag_run (s : State) (x : Nibble) (d f : Byte) : (s.writeRegThenFlag x d f).run = s.run := rfl

@[simp] theorem State.writeFlagAndReg_run (s : State) (x : Nibble) (f d : Byte) : (s.writeFlagAndReg x f d).run = s.run := by
  unfold State.writeFlagAndReg
  split <;> rfl

@[simp] theorem State.writeRegThenFlag_params (s : State) (x : Nibble) (d f : Byte) : (s.writeRegThenFlag x d f).params = s.params := rfl

@[simp] theorem State.writeFlagAndReg_params (s : State) (x : Nibble) (f d : Byte) : (s.writeFlagAndReg x f d).params = s.params := by
  unfold State.writeFlagAndReg
  split <;> rfl

@[simp] theorem State.writeRegThenFlag_draws (s : State) (x : Nibble) (d f : Byte) : (s.writeRegThenFlag x d f).draws = s.draws := rfl

@[simp] theorem State.writeFlagAndReg_draws (s : State) (x : Nibble) (f d : Byte) : (s.writeFlagAndReg x f d).draws = s.draws := by
  unfold State.writeFlagAndReg
  split <;> rfl

@[simp] theorem State.writeRegThenFlag_schedule (s : State) (x : Nibble) (d f : Byte) : (s.writeRegThenFlag x d f).schedule = s.schedule := rfl

@[simp] theorem State.writeFlagAndReg_schedule (s : State) (x : Nibble) (f d : Byte) : (s.writeFlagAndReg x f d).schedule = s.schedule := by
  unfold State.writeFlagAndReg
  split <;> rfl

@[simp] theorem State.writeRegThenFlag_redrawSignals (s : State) (x : Nibble) (d f : Byte) : (s.writeRegThenFlag x d f).redrawSignals = s.redrawSignals := rfl

@[simp] theorem State.writeFlagAndReg_redrawSignals (s : State) (x : Nibble) (f d : Byte) : (s.writeFlagAndReg x f d).redrawSignals = s.redrawSignals := by
  unfold State.writeFlagAndReg
  split <;> rfl

end Sys2Proof.Machine
end

