-- ==== Sys2Proof/Laws/Regs.lean ====
section
/-! SUPPORT. The laws of the general registers and of the operand forms. -/

namespace Sys2Proof.Machine

/-- Reading a register after writing one. -/
theorem State.reg_setReg (s : State) (x y : Nibble) (b : Byte) :
    (s.setReg x b).reg y = if y = x then b else s.reg y := by
  have h : (x.toNat = y.toNat) ↔ y = x := by
    constructor
    · intro h; exact (BitVec.eq_of_toNat_eq h).symm
    · rintro rfl; rfl
  simp only [State.reg, State.setReg, Vector.getElem_set, h]

@[simp] theorem State.reg_setReg_same (s : State) (x : Nibble) (b : Byte) : (s.setReg x b).reg x = b := by
  simp [State.reg_setReg]

theorem State.reg_setReg_ne (s : State) (x y : Nibble) (b : Byte) (h : y ≠ x) :
    (s.setReg x b).reg y = s.reg y := by
  simp [State.reg_setReg, h]

/-- Registers depend on the field v alone. -/
theorem State.reg_congr (s t : State) (h : t.v = s.v) (x : Nibble) : t.reg x = s.reg x := by
  simp [State.reg, h]

/-- The writes of 8xy4 as one equation of states: Vx, then VF. -/
theorem State.writeRegThenFlag_reg (s : State) (x r : Nibble) (d f : Byte) :
    (s.writeRegThenFlag x d f).reg r = if r = vf then f else if r = x then d else s.reg r := by
  simp [State.writeRegThenFlag, State.reg_setReg]

/-- The writes of the flag-first instructions, by policy. -/
theorem State.writeFlagAndReg_reg (s : State) (x r : Nibble) (f d : Byte) :
    (s.writeFlagAndReg x f d).reg r =
      match s.params.vfWriteOrder with
      | .tableOrder => if r = x then d else if r = vf then f else s.reg r
      | .flagLast => if r = vf then f else if r = x then d else s.reg r := by
  unfold State.writeFlagAndReg
  cases s.params.vfWriteOrder <;> simp [State.reg_setReg]

/-- Both pairs of writes change the general registers alone. -/
theorem State.writeFlagAndReg_eq (s : State) (x : Nibble) (f d : Byte) :
    s.writeFlagAndReg x f d = { s with v := (s.writeFlagAndReg x f d).v } := by
  unfold State.writeFlagAndReg
  cases s.params.vfWriteOrder <;> rfl

theorem State.writeRegThenFlag_eq (s : State) (x : Nibble) (d f : Byte) :
    s.writeRegThenFlag x d f = { s with v := (s.writeRegThenFlag x d f).v } := rfl

/-- The registers after a block load (44_index_memory.md R237). -/
theorem State.loadRegs_getElem (s : State) (x : Nibble) (k : Nat) (hk : k < 16) :
    (s.loadRegs x)[k] = if k ≤ x.toNat then s.mem.read (s.i.toNat + k) else s.v[k] := by
  simp [State.loadRegs, State.iAddr]

@[simp] theorem State.regsUpTo_length (s : State) (x : Nibble) : (s.regsUpTo x).length = x.toNat + 1 := by
  simp [State.regsUpTo]

theorem State.regsUpTo_getElem (s : State) (x : Nibble) (k : Nat) (h : k < (s.regsUpTo x).length) :
    (s.regsUpTo x)[k] = s.reg (BitVec.ofNat 4 k) := by
  simp [State.regsUpTo]

@[simp] theorem State.bytesAtI_length (s : State) (n : Nat) : (s.bytesAtI n).length = n := by
  simp [State.bytesAtI]

theorem State.bytesAtI_getElem (s : State) (n k : Nat) (h : k < (s.bytesAtI n).length) :
    (s.bytesAtI n)[k] = s.mem.read (s.i.toNat + k) := by
  simp [State.bytesAtI, State.iAddr]

@[simp] theorem decimalDigits_length (b : Byte) : (decimalDigits b).length = 3 := rfl

@[simp] theorem zext16_toNat (nnn : Addr12) : (zext16 nnn).toNat = nnn.toNat := by
  have := nnn.isLt
  simp only [zext16, BitVec.toNat_setWidth]
  omega

/-- An access of n bytes at base finds every address in memory exactly when the last one is. -/
theorem firstOutOfBounds_eq_none (base n : Nat) :
    firstOutOfBounds base n = none ↔ n = 0 ∨ base + n ≤ 0x1000 := by
  simp only [firstOutOfBounds, List.find?_eq_none, List.mem_map, List.mem_range, decide_eq_true_eq,
    forall_exists_index, and_imp, forall_apply_eq_imp_iff₂]
  constructor
  · intro h
    rcases Nat.eq_zero_or_pos n with h0 | h0
    · exact .inl h0
    · have := h (n - 1) (by omega)
      omega
  · intro h a ha
    omega

/-- Otherwise the address found is the lowest above 0xFFF: base itself, or 0x1000. -/
theorem firstOutOfBounds_eq_some (base n a : Nat) (h : firstOutOfBounds base n = some a) :
    0 < n ∧ 0x1000 < base + n ∧ a = max base 0x1000 := by
  have hsome := List.find?_eq_some_iff_append.mp h
  obtain ⟨ha, as, bs, heq, hall⟩ := hsome
  simp only [decide_eq_true_eq] at ha
  have hlen : as.length < n := by
    have := congrArg List.length heq
    simp at this
    omega
  have hget : base + as.length = a := by
    have h1 : ((List.range n).map (base + ·))[as.length]? = some a := by rw [heq]; simp
    rw [List.getElem?_map, List.getElem?_range hlen] at h1
    simpa using h1
  have hmax : a = max base 0x1000 := by
    rcases Nat.eq_zero_or_pos as.length with h0 | h0
    · rw [h0] at hget
      omega
    · have hmem : base + (as.length - 1) ∈ as := by
        have h1 : ((List.range n).map (base + ·))[as.length - 1]? = as[as.length - 1]? := by
          rw [heq, List.getElem?_append_left (by omega)]
        rw [List.getElem?_map, List.getElem?_range (by omega)] at h1
        exact List.mem_of_getElem? h1.symm
      have := hall _ hmem
      simp at this
      omega
  exact ⟨by omega, by omega, hmax⟩

end Sys2Proof.Machine
end

