-- ==== Sys2Proof/Laws/Ops.lean ====
section
/-! SUPPORT. One lemma per shared operation that says everything it can do. -/

namespace Sys2Proof.Machine

theorem raiseFault_eq (s : State) (w : Word) (k : FaultKind) :
    raiseFault s w k = .next { s with run := .halted { kind := k, pc := s.pc, word := some w } } := rfl

/-- A commit within range completes. -/
theorem commit_of_le (s : State) (w : Word) (t : State) (n : Nat) (h : n ≤ 0xFFE) :
    commit s w t n = .next { t with pc := BitVec.ofNat 16 n, lastKeys := s.keys } := by
  rw [commit, if_neg (by simp only [Config.lastPc]; omega)]

/-- A commit out of range faults. -/
theorem commit_of_gt (s : State) (w : Word) (t : State) (n : Nat) (h : 0xFFE < n) :
    commit s w t n = raiseFault s w (.pcOutOfRange n) := by
  rw [commit, if_pos h]

/-- Everything a commit can do. -/
theorem commit_cases {s : State} {w : Word} {t u : State} {n : Nat} (h : commit s w t n = .next u) :
    (n ≤ 0xFFE ∧ u = { t with pc := BitVec.ofNat 16 n, lastKeys := s.keys }) ∨
      (0xFFE < n ∧ u = s.halt (.pcOutOfRange n) (some w)) := by
  rcases Nat.lt_or_ge 0xFFE n with hn | hn
  · rw [commit_of_gt s w t n hn] at h
    exact .inr ⟨hn, by injection h with h; exact h.symm⟩
  · rw [commit_of_le s w t n hn] at h
    exact .inl ⟨hn, by injection h with h; exact h.symm⟩

/-- Going on at pc + 2, within range. -/
theorem advance_of_le (s : State) (w : Word) (t : State) (h : s.pc.toNat + 2 ≤ 0xFFE) :
    advance s w t = .next { t with pc := BitVec.ofNat 16 (s.pc.toNat + 2), lastKeys := s.keys } :=
  commit_of_le s w t _ h

/-- Going on at pc + 2, out of range. -/
theorem advance_of_gt (s : State) (w : Word) (t : State) (h : 0xFFE < s.pc.toNat + 2) :
    advance s w t = raiseFault s w (.pcOutOfRange (s.pc.toNat + 2)) :=
  commit_of_gt s w t _ h

/-- The committed pc as a number. -/
theorem ofNat_pc_toNat (n : Nat) (h : n ≤ 0xFFE) : (BitVec.ofNat 16 n).toNat = n := by
  simp only [BitVec.toNat_ofNat]
  omega

/-- Everything a checked access can do: fault at the lowest address above 0xFFF, or go on. -/
theorem withAccessAtI_cases {s : State} {w : Word} {n : Nat} {go : Result} {u : State}
    (h : withAccessAtI s w n go = .next u) :
    ((n = 0 ∨ s.i.toNat + n ≤ 0x1000) ∧ go = .next u) ∨
      (0 < n ∧ 0x1000 < s.i.toNat + n ∧
        u = s.halt (.memOutOfBounds (max s.i.toNat 0x1000)) (some w)) := by
  unfold withAccessAtI at h
  split at h
  · rename_i a ha
    obtain ⟨h1, h2, rfl⟩ := firstOutOfBounds_eq_some _ _ _ ha
    exact .inr ⟨h1, h2, by injection h with h; exact h.symm⟩
  · rename_i ha
    exact .inl ⟨(firstOutOfBounds_eq_none _ _).mp ha, h⟩

/-- A checked access that lies in memory goes on. -/
theorem withAccessAtI_of_le (s : State) (w : Word) (n : Nat) (go : Result)
    (h : n = 0 ∨ s.i.toNat + n ≤ 0x1000) : withAccessAtI s w n go = go := by
  rw [withAccessAtI, (firstOutOfBounds_eq_none _ _).mpr h]

/-- A checked access that leaves memory faults. -/
theorem withAccessAtI_of_gt (s : State) (w : Word) (n : Nat) (go : Result)
    (hn : 0 < n) (h : 0x1000 < s.i.toNat + n) :
    withAccessAtI s w n go = raiseFault s w (.memOutOfBounds (max s.i.toNat 0x1000)) := by
  unfold withAccessAtI
  cases hf : firstOutOfBounds s.i.toNat n with
  | none =>
    have := (firstOutOfBounds_eq_none _ _).mp hf
    omega
  | some a =>
    obtain ⟨-, -, rfl⟩ := firstOutOfBounds_eq_some _ _ _ hf
    rfl

/-- Everything the key index check can do. -/
theorem withKeyIndex_cases {s : State} {w : Word} {k : Byte} {go : Result} {u : State}
    (h : withKeyIndex s w k go = .next u) :
    (k.toNat ≤ 0xF ∧ go = .next u) ∨
      (0xF < k.toNat ∧ u = s.halt (.keyIndexOutOfRange k) (some w)) := by
  unfold withKeyIndex at h
  split at h
  · exact .inr ⟨by assumption, by injection h with h; exact h.symm⟩
  · exact .inl ⟨by omega, h⟩

/-- A push onto a stack that is not full. -/
theorem State.push_of_lt (s : State) (a : Word) (h : s.sp.val < 16) :
    s.push a = some { s with stack := s.stack.set s.sp.val a h, sp := ⟨s.sp.val + 1, by omega⟩ } := by
  rw [State.push, dif_pos h]

/-- A push onto a full stack. -/
theorem State.push_of_full (s : State) (a : Word) (h : s.sp.val = 16) : s.push a = none := by
  rw [State.push, dif_neg (by omega)]

/-- A pop from a stack that is not empty. -/
theorem State.pop_of_pos (s : State) (h : 0 < s.sp.val) :
    s.pop = some (s.stack[s.sp.val - 1]'(by omega), { s with sp := ⟨s.sp.val - 1, by omega⟩ }) := by
  rw [State.pop, dif_pos h]

/-- A pop from an empty stack. -/
theorem State.pop_of_empty (s : State) (h : s.sp.val = 0) : s.pop = none := by
  rw [State.pop, dif_neg (by omega)]

/-- Everything the search for a key-down transition can find: none, or the lowest key with one. -/
theorem State.keyTransition_eq_none (s : State) :
    s.keyTransition = none ↔ ∀ k < 16, ¬(s.keys.getLsbD k = true ∧ s.lastKeys.getLsbD k = false) := by
  simp [State.keyTransition, List.find?_eq_none]

theorem State.keyTransition_eq_some (s : State) (k : Nat) (h : s.keyTransition = some k) :
    k < 16 ∧ s.keys.getLsbD k = true ∧ s.lastKeys.getLsbD k = false ∧
      ∀ j < k, ¬(s.keys.getLsbD j = true ∧ s.lastKeys.getLsbD j = false) := by
  have hk : k < 16 := by
    have := List.mem_of_find?_eq_some h
    simpa using this
  have hp := List.find?_some h
  simp only [Bool.and_eq_true, Bool.not_eq_true'] at hp
  refine ⟨hk, hp.1, hp.2, fun j hj hjp => ?_⟩
  obtain ⟨-, as, bs, heq, hall⟩ := List.find?_eq_some_iff_append.mp h
  have hlen : as.length = k := by
    have h1 : (List.range 16)[as.length]? = some k := by rw [heq]; simp
    have h2 : as.length < 16 := by
      have := congrArg List.length heq
      simp at this
      omega
    rw [List.getElem?_range h2] at h1
    simpa using h1
  have hmem : j ∈ as := by
    have h1 : (List.range 16)[j]? = as[j]? := by rw [heq, List.getElem?_append_left (by omega)]
    rw [List.getElem?_range (by omega)] at h1
    exact List.mem_of_getElem? h1.symm
  have := hall j hmem
  simp [hjp.1, hjp.2] at this

/-- Everything an event can do: a step, a tick, a latch, or the end of the run. -/
theorem step_cases {s t : State} (h : step s = .next t) :
    s.run = .running ∧
      ((s.nextEvent = .step ∧ instructionStep s.dropEvent = .next t) ∨
        (s.nextEvent = .tick ∧ t = timerTick s.dropEvent) ∨
        (∃ ks, s.nextEvent = .latch ks ∧ t = latchKeys ks s.dropEvent)) := by
  unfold step runEvent at h
  split at h
  · rename_i hr
    refine ⟨hr, ?_⟩
    unfold takeEvent at h
    split at h
    · rename_i he; exact .inl ⟨he, h⟩
    · rename_i he; exact .inr (.inl ⟨he, by injection h with h; exact h.symm⟩)
    · rename_i ks he; exact .inr (.inr ⟨ks, he, by injection h with h; exact h.symm⟩)
    · cases h
  · cases h

/-- Everything one STEP can do: fault at fetch, execute an instruction, or meet an INVALID word. -/
theorem instructionStep_cases {s t : State} (h : instructionStep s = .next t) :
    (0xFFE < s.pc.toNat ∧ t = s.halt (.memOutOfBounds (s.pc.toNat + 1)) none) ∨
      ∃ w, s.fetch = some w ∧
        ((∃ i, decode w = .instr i ∧ exec i s = .next t) ∨
          (∃ g, decode w = .invalid g ∧ execInvalid w s = .next t)) := by
  unfold instructionStep at h
  split at h
  · rename_i hf
    left
    unfold State.fetch at hf
    split at hf
    · cases hf
    · rename_i hp
      exact ⟨by simpa [Config.lastPc] using hp, by injection h with h; exact h.symm⟩
  · rename_i w hf
    right
    refine ⟨w, hf, ?_⟩
    cases hd : decode w with
    | instr i => rw [hd] at h; exact .inl ⟨i, rfl, h⟩
    | invalid g => rw [hd] at h; exact .inr ⟨g, rfl, h⟩

/-- Everything an INVALID word can do. -/
theorem execInvalid_cases {s t : State} {w : Word} (h : execInvalid w s = .next t) :
    (s.params.invalidOpcode = .abort ∧ t = s.halt .invalidOpcode (some w)) ∨
      (s.params.invalidOpcode = .skip ∧ advance s w s = .next t) := by
  unfold execInvalid at h
  split at h
  · rename_i hp; exact .inl ⟨hp, by injection h with h; exact h.symm⟩
  · rename_i hp; exact .inr ⟨hp, h⟩

end Sys2Proof.Machine
end

