-- ==== Sys2Proof/Laws/Exec.lean ====
section
/-! SUPPORT. What executing an instruction can do, said once: it never stops the machine; it halts, or it
commits the writes and the next pc its rule gives (40_engine.md R126). -/

namespace Sys2Proof.Machine

/-- The writes (as the state u) and the next pc n that an instruction's rule gives in s when the instruction
raises no fault of its own. -/
def Effect (i : Instr) (s u : State) (n : Nat) : Prop :=
  match i with
  | .cls => u = { s with disp := Display.clear, redraw := true } ∧ n = s.pcPlus2
  | .ret => ∃ h : 0 < s.sp.val,
      u = { s with sp := ⟨s.sp.val - 1, by omega⟩ } ∧ n = (s.stack[s.sp.val - 1]).toNat
  | .sys _ => u = s ∧ n = s.pcPlus2
  | .jp nnn => u = s ∧ n = nnn.toNat
  | .call nnn => ∃ h : s.sp.val < 16,
      u = { s with
        stack := s.stack.set s.sp.val (BitVec.ofNat 16 s.pcPlus2) h, sp := ⟨s.sp.val + 1, by omega⟩ } ∧
      n = nnn.toNat
  | .seImm x kk => u = s ∧ n = if s.reg x = kk then s.pcPlus4 else s.pcPlus2
  | .sneImm x kk => u = s ∧ n = if s.reg x = kk then s.pcPlus2 else s.pcPlus4
  | .seReg x y => u = s ∧ n = if s.reg x = s.reg y then s.pcPlus4 else s.pcPlus2
  | .sneReg x y => u = s ∧ n = if s.reg x = s.reg y then s.pcPlus2 else s.pcPlus4
  | .ldImm x kk => u = s.setReg x kk ∧ n = s.pcPlus2
  | .addImm x kk => u = s.setReg x (s.reg x + kk) ∧ n = s.pcPlus2
  | .ldReg x y => u = s.setReg x (s.reg y) ∧ n = s.pcPlus2
  | .orReg x y => u = s.setReg x (s.reg x ||| s.reg y) ∧ n = s.pcPlus2
  | .andReg x y => u = s.setReg x (s.reg x &&& s.reg y) ∧ n = s.pcPlus2
  | .xorReg x y => u = s.setReg x (s.reg x ^^^ s.reg y) ∧ n = s.pcPlus2
  | .addReg x y =>
      u = s.writeRegThenFlag x (s.reg x + s.reg y) (carryFlag (s.reg x) (s.reg y)) ∧ n = s.pcPlus2
  | .sub x y =>
      u = s.writeFlagAndReg x (noBorrowFlag (s.reg x) (s.reg y)) (s.reg x - s.reg y) ∧ n = s.pcPlus2
  | .shr x y =>
      u = s.writeFlagAndReg x (shrFlag (s.reg (s.shiftReg x y))) (s.reg (s.shiftReg x y) >>> 1) ∧
      n = s.pcPlus2
  | .subn x y =>
      u = s.writeFlagAndReg x (noBorrowFlag (s.reg y) (s.reg x)) (s.reg y - s.reg x) ∧ n = s.pcPlus2
  | .shl x y =>
      u = s.writeFlagAndReg x (shlFlag (s.reg (s.shiftReg x y))) (s.reg (s.shiftReg x y) <<< 1) ∧
      n = s.pcPlus2
  | .ldI nnn => u = { s with i := zext16 nnn } ∧ n = s.pcPlus2
  | .jpV0 nnn => u = s ∧ n = nnn.toNat + (s.reg 0x0#4).toNat
  | .rnd x kk =>
      u = { s.setReg x (Config.randByte s.draws &&& kk) with draws := s.draws + 1 } ∧ n = s.pcPlus2
  | .drw x y k =>
      (k.toNat = 0 ∨ s.i.toNat + k.toNat ≤ 0x1000) ∧
      (let p := drawSprite s.disp (s.reg y).toNat (s.reg x).toNat (s.bytesAtI k.toNat)
       u = { s.setReg vf (flag p.collide) with disp := p.disp, redraw := true }) ∧ n = s.pcPlus2
  | .skp x => (s.reg x).toNat ≤ 0xF ∧ u = s ∧
      n = if s.keys.getLsbD (s.reg x).toNat = true then s.pcPlus4 else s.pcPlus2
  | .sknp x => (s.reg x).toNat ≤ 0xF ∧ u = s ∧
      n = if s.keys.getLsbD (s.reg x).toNat = true then s.pcPlus2 else s.pcPlus4
  | .ldVxDt x => u = s.setReg x s.dt ∧ n = s.pcPlus2
  | .ldVxK x => (s.keyTransition = none ∧ u = s ∧ n = s.pc.toNat) ∨
      ∃ k, s.keyTransition = some k ∧ u = s.setReg x (BitVec.ofNat 8 k) ∧ n = s.pcPlus2
  | .ldDtVx x => u = { s with dt := s.reg x } ∧ n = s.pcPlus2
  | .ldStVx x => u = { s with st := s.reg x } ∧ n = s.pcPlus2
  | .addIVx x => u = { s with i := s.i + (s.reg x).zeroExtend 16 } ∧ n = s.pcPlus2
  | .ldFVx x => u = { s with i := BitVec.ofNat 16 (5 * (s.reg x).toNat) } ∧ n = s.pcPlus2
  | .ldBVx x => s.i.toNat + 3 ≤ 0x1000 ∧
      u = { s with mem := s.mem.writeBlock s.i.toNat (decimalDigits (s.reg x)) } ∧ n = s.pcPlus2
  | .ldMemVx x => s.i.toNat + (x.toNat + 1) ≤ 0x1000 ∧
      u = { s with mem := s.mem.writeBlock s.i.toNat (s.regsUpTo x) } ∧ n = s.pcPlus2
  | .ldVxMem x => s.i.toNat + (x.toNat + 1) ≤ 0x1000 ∧
      u = { s with v := s.loadRegs x } ∧ n = s.pcPlus2

/-- Executing an instruction answers a next state and nothing else: it commits its effect, or it halts with
a fault of its own or with PC_OUT_OF_RANGE. -/
theorem exec_eq (i : Instr) (s : State) :
    (∃ u n, Effect i s u n ∧ exec i s = commit s (encode i) u n) ∨
      (∃ k, exec i s = raiseFault s (encode i) k) := by
  have access : ∀ (w : Word) (n : Nat) (go : Result),
      ((n = 0 ∨ s.i.toNat + n ≤ 0x1000) ∧ withAccessAtI s w n go = go) ∨
        ∃ k, withAccessAtI s w n go = raiseFault s w k := by
    intro w n go
    by_cases h : n = 0 ∨ s.i.toNat + n ≤ 0x1000
    · exact .inl ⟨h, withAccessAtI_of_le s w n go h⟩
    · exact .inr ⟨_, withAccessAtI_of_gt s w n go (by omega) (by omega)⟩
  have index : ∀ (w : Word) (k : Byte) (go : Result),
      (k.toNat ≤ 0xF ∧ withKeyIndex s w k go = go) ∨ ∃ q, withKeyIndex s w k go = raiseFault s w q := by
    intro w k go
    by_cases h : 0xF < k.toNat
    · exact .inr ⟨_, by rw [withKeyIndex, if_pos h]⟩
    · exact .inl ⟨by omega, by rw [withKeyIndex, if_neg h]⟩
  cases i with
  | ret =>
    simp only [exec, execRet]
    by_cases h : 0 < s.sp.val
    · rw [State.pop_of_pos s h]
      exact .inl ⟨_, _, ⟨h, rfl, rfl⟩, rfl⟩
    · rw [State.pop_of_empty s (by omega)]
      exact .inr ⟨_, rfl⟩
  | call nnn =>
    simp only [exec, execCall]
    by_cases h : s.sp.val < 16
    · rw [State.push_of_lt s _ h]
      exact .inl ⟨_, _, ⟨h, rfl, rfl⟩, by simp only [zext16_toNat]⟩
    · rw [State.push_of_full s _ (by omega)]
      exact .inr ⟨_, rfl⟩
  | jp nnn => exact .inl ⟨_, _, ⟨rfl, rfl⟩, by simp only [exec, execJp, zext16_toNat]⟩
  | jpV0 nnn => exact .inl ⟨_, _, ⟨rfl, rfl⟩, by simp only [exec, execJpV0, zext16_toNat]⟩
  | seImm x kk => exact .inl ⟨_, _, ⟨rfl, rfl⟩, by simp [exec, execSeImm, skipIf]⟩
  | sneImm x kk =>
    exact .inl ⟨_, _, ⟨rfl, rfl⟩, by by_cases h : s.reg x = kk <;> simp [exec, execSneImm, skipIf, h]⟩
  | seReg x y => exact .inl ⟨_, _, ⟨rfl, rfl⟩, by simp [exec, execSeReg, skipIf]⟩
  | sneReg x y =>
    exact .inl ⟨_, _, ⟨rfl, rfl⟩, by
      by_cases h : s.reg x = s.reg y <;> simp [exec, execSneReg, skipIf, h]⟩
  | drw x y k =>
    rcases access (encode (.drw x y k)) k.toNat _ with ⟨h, he⟩ | ⟨q, he⟩
    · exact .inl ⟨_, _, ⟨h, rfl, rfl⟩, he⟩
    · exact .inr ⟨q, he⟩
  | skp x =>
    rcases index (encode (.skp x)) (s.reg x) _ with ⟨h, he⟩ | ⟨q, he⟩
    · exact .inl ⟨_, _, ⟨h, rfl, rfl⟩, he⟩
    · exact .inr ⟨q, he⟩
  | sknp x =>
    rcases index (encode (.sknp x)) (s.reg x) _ with ⟨h, he⟩ | ⟨q, he⟩
    · refine .inl ⟨_, _, ⟨h, rfl, rfl⟩, he.trans ?_⟩
      cases hk : s.keys.getLsbD (s.reg x).toNat <;> simp [skipIf, State.keyDown, hk]
    · exact .inr ⟨q, he⟩
  | ldVxK x =>
    simp only [exec, execLdVxK]
    cases h : s.keyTransition with
    | none => exact .inl ⟨_, _, .inl ⟨h, rfl, rfl⟩, rfl⟩
    | some k => exact .inl ⟨_, _, .inr ⟨k, h, rfl, rfl⟩, rfl⟩
  | ldBVx x =>
    rcases access (encode (.ldBVx x)) 3 _ with ⟨h, he⟩ | ⟨q, he⟩
    · exact .inl ⟨_, _, ⟨by omega, rfl, rfl⟩, he⟩
    · exact .inr ⟨q, he⟩
  | ldMemVx x =>
    rcases access (encode (.ldMemVx x)) (x.toNat + 1) _ with ⟨h, he⟩ | ⟨q, he⟩
    · exact .inl ⟨_, _, ⟨by omega, rfl, rfl⟩, he⟩
    · exact .inr ⟨q, he⟩
  | ldVxMem x =>
    rcases access (encode (.ldVxMem x)) (x.toNat + 1) _ with ⟨h, he⟩ | ⟨q, he⟩
    · exact .inl ⟨_, _, ⟨by omega, rfl, rfl⟩, he⟩
    · exact .inr ⟨q, he⟩
  | cls | sys _ | ldImm _ _ | addImm _ _ | ldReg _ _ | orReg _ _ | andReg _ _ | xorReg _ _
  | addReg _ _ | sub _ _ | shr _ _ | subn _ _ | shl _ _ | ldI _ | rnd _ _ | ldVxDt _ | ldDtVx _
  | ldStVx _ | addIVx _ | ldFVx _ => exact .inl ⟨_, _, ⟨rfl, rfl⟩, rfl⟩

/-- Everything executing an instruction can do: halt, changing RUN alone, or commit its effect. -/
theorem exec_cases {i : Instr} {s t : State} (h : exec i s = .next t) :
    (∃ k, t = s.halt k (some (encode i))) ∨
      ∃ u n, Effect i s u n ∧ n ≤ 0xFFE ∧
        t = { u with pc := BitVec.ofNat 16 n, lastKeys := s.keys } := by
  rcases exec_eq i s with ⟨u, n, he, hx⟩ | ⟨k, hx⟩
  · rcases commit_cases (hx.symm.trans h) with ⟨hn, ht⟩ | ⟨-, ht⟩
    · exact .inr ⟨u, n, he, hn, ht⟩
    · exact .inl ⟨_, ht⟩
  · rw [hx] at h
    exact .inl ⟨k, by injection h with h; exact h.symm⟩

/-- Executing an instruction always answers a next state. -/
theorem exec_next (i : Instr) (s : State) : ∃ t, exec i s = .next t := by
  rcases exec_eq i s with ⟨u, n, -, hx⟩ | ⟨k, hx⟩
  · rw [hx]
    unfold commit
    split
    · exact ⟨_, rfl⟩
    · exact ⟨_, rfl⟩
  · exact ⟨_, hx⟩

end Sys2Proof.Machine
end

