-- ==== Sys2Proof/Laws/PerInstr.lean ====
section
/-! SUPPORT. The family RowMatch: the word of every instruction matches the instruction's row of the opcode
map (30_encoding.md R94). One lemma per constructor. -/

namespace Sys2Proof.Laws.RowMatch

/-- The encoded word matches the instruction's row: `(w & mask) == match` (R94). -/
def Statement (i : Instr) : Prop := i.row.matchesWord (encode i) = true

/-- A word masked by a row gives the row's pattern when it does so bit by bit. -/
theorem matches_of_bits (r : OpcodeRow) (w : Word)
    (h : ∀ k < 16, (w.getLsbD k && r.mask.getLsbD k) = r.pattern.getLsbD k) : r.matchesWord w = true := by
  simp only [OpcodeRow.matchesWord, beq_iff_eq]
  apply BitVec.eq_of_getLsbD_eq
  intro k hk
  simpa using h k hk

theorem cls : Statement .cls := by unfold Statement; decide

theorem ret : Statement .ret := by unfold Statement; decide

theorem sys (nnn : Addr12) : Statement (.sys nnn) := by
  apply matches_of_bits
  intro k hk
  simp only [Instr.row, encode, layoutA_getLsbD]
  interval_cases k <;> simp

theorem jp (nnn : Addr12) : Statement (.jp nnn) := by
  apply matches_of_bits
  intro k hk
  simp only [Instr.row, encode, layoutA_getLsbD]
  interval_cases k <;> simp

theorem call (nnn : Addr12) : Statement (.call nnn) := by
  apply matches_of_bits
  intro k hk
  simp only [Instr.row, encode, layoutA_getLsbD]
  interval_cases k <;> simp

theorem seImm (x : Nibble) (kk : Byte) : Statement (.seImm x kk) := by
  apply matches_of_bits
  intro k hk
  simp only [Instr.row, encode, layoutXK_getLsbD]
  interval_cases k <;> simp

theorem sneImm (x : Nibble) (kk : Byte) : Statement (.sneImm x kk) := by
  apply matches_of_bits
  intro k hk
  simp only [Instr.row, encode, layoutXK_getLsbD]
  interval_cases k <;> simp

theorem seReg (x y : Nibble) : Statement (.seReg x y) := by
  apply matches_of_bits
  intro k hk
  simp only [Instr.row, encode, layoutXYN_getLsbD]
  interval_cases k <;> simp

theorem ldImm (x : Nibble) (kk : Byte) : Statement (.ldImm x kk) := by
  apply matches_of_bits
  intro k hk
  simp only [Instr.row, encode, layoutXK_getLsbD]
  interval_cases k <;> simp

theorem addImm (x : Nibble) (kk : Byte) : Statement (.addImm x kk) := by
  apply matches_of_bits
  intro k hk
  simp only [Instr.row, encode, layoutXK_getLsbD]
  interval_cases k <;> simp

theorem ldReg (x y : Nibble) : Statement (.ldReg x y) := by
  apply matches_of_bits
  intro k hk
  simp only [Instr.row, encode, layoutXYN_getLsbD]
  interval_cases k <;> simp

theorem orReg (x y : Nibble) : Statement (.orReg x y) := by
  apply matches_of_bits
  intro k hk
  simp only [Instr.row, encode, layoutXYN_getLsbD]
  interval_cases k <;> simp

theorem andReg (x y : Nibble) : Statement (.andReg x y) := by
  apply matches_of_bits
  intro k hk
  simp only [Instr.row, encode, layoutXYN_getLsbD]
  interval_cases k <;> simp

theorem xorReg (x y : Nibble) : Statement (.xorReg x y) := by
  apply matches_of_bits
  intro k hk
  simp only [Instr.row, encode, layoutXYN_getLsbD]
  interval_cases k <;> simp

theorem addReg (x y : Nibble) : Statement (.addReg x y) := by
  apply matches_of_bits
  intro k hk
  simp only [Instr.row, encode, layoutXYN_getLsbD]
  interval_cases k <;> simp

theorem sub (x y : Nibble) : Statement (.sub x y) := by
  apply matches_of_bits
  intro k hk
  simp only [Instr.row, encode, layoutXYN_getLsbD]
  interval_cases k <;> simp

theorem shr (x y : Nibble) : Statement (.shr x y) := by
  apply matches_of_bits
  intro k hk
  simp only [Instr.row, encode, layoutXYN_getLsbD]
  interval_cases k <;> simp

theorem subn (x y : Nibble) : Statement (.subn x y) := by
  apply matches_of_bits
  intro k hk
  simp only [Instr.row, encode, layoutXYN_getLsbD]
  interval_cases k <;> simp

theorem shl (x y : Nibble) : Statement (.shl x y) := by
  apply matches_of_bits
  intro k hk
  simp only [Instr.row, encode, layoutXYN_getLsbD]
  interval_cases k <;> simp

theorem sneReg (x y : Nibble) : Statement (.sneReg x y) := by
  apply matches_of_bits
  intro k hk
  simp only [Instr.row, encode, layoutXYN_getLsbD]
  interval_cases k <;> simp

theorem ldI (nnn : Addr12) : Statement (.ldI nnn) := by
  apply matches_of_bits
  intro k hk
  simp only [Instr.row, encode, layoutA_getLsbD]
  interval_cases k <;> simp

theorem jpV0 (nnn : Addr12) : Statement (.jpV0 nnn) := by
  apply matches_of_bits
  intro k hk
  simp only [Instr.row, encode, layoutA_getLsbD]
  interval_cases k <;> simp

theorem rnd (x : Nibble) (kk : Byte) : Statement (.rnd x kk) := by
  apply matches_of_bits
  intro k hk
  simp only [Instr.row, encode, layoutXK_getLsbD]
  interval_cases k <;> simp

theorem drw (x y n : Nibble) : Statement (.drw x y n) := by
  apply matches_of_bits
  intro k hk
  simp only [Instr.row, encode, layoutXYN_getLsbD]
  interval_cases k <;> simp

theorem skp (x : Nibble) : Statement (.skp x) := by
  apply matches_of_bits
  intro k hk
  simp only [Instr.row, encode, layoutXK_getLsbD]
  interval_cases k <;> simp

theorem sknp (x : Nibble) : Statement (.sknp x) := by
  apply matches_of_bits
  intro k hk
  simp only [Instr.row, encode, layoutXK_getLsbD]
  interval_cases k <;> simp

theorem ldVxDt (x : Nibble) : Statement (.ldVxDt x) := by
  apply matches_of_bits
  intro k hk
  simp only [Instr.row, encode, layoutXK_getLsbD]
  interval_cases k <;> simp

theorem ldVxK (x : Nibble) : Statement (.ldVxK x) := by
  apply matches_of_bits
  intro k hk
  simp only [Instr.row, encode, layoutXK_getLsbD]
  interval_cases k <;> simp

theorem ldDtVx (x : Nibble) : Statement (.ldDtVx x) := by
  apply matches_of_bits
  intro k hk
  simp only [Instr.row, encode, layoutXK_getLsbD]
  interval_cases k <;> simp

theorem ldStVx (x : Nibble) : Statement (.ldStVx x) := by
  apply matches_of_bits
  intro k hk
  simp only [Instr.row, encode, layoutXK_getLsbD]
  interval_cases k <;> simp

theorem addIVx (x : Nibble) : Statement (.addIVx x) := by
  apply matches_of_bits
  intro k hk
  simp only [Instr.row, encode, layoutXK_getLsbD]
  interval_cases k <;> simp

theorem ldFVx (x : Nibble) : Statement (.ldFVx x) := by
  apply matches_of_bits
  intro k hk
  simp only [Instr.row, encode, layoutXK_getLsbD]
  interval_cases k <;> simp

theorem ldBVx (x : Nibble) : Statement (.ldBVx x) := by
  apply matches_of_bits
  intro k hk
  simp only [Instr.row, encode, layoutXK_getLsbD]
  interval_cases k <;> simp

theorem ldMemVx (x : Nibble) : Statement (.ldMemVx x) := by
  apply matches_of_bits
  intro k hk
  simp only [Instr.row, encode, layoutXK_getLsbD]
  interval_cases k <;> simp

theorem ldVxMem (x : Nibble) : Statement (.ldVxMem x) := by
  apply matches_of_bits
  intro k hk
  simp only [Instr.row, encode, layoutXK_getLsbD]
  interval_cases k <;> simp

end Sys2Proof.Laws.RowMatch
end

