-- ==== Sys2Proof/Laws/Screen.lean ====
section
/-! SUPPORT. The laws of the framebuffer: what a flip and a drawn pixel do to each pixel. -/

namespace Sys2Proof.Machine

@[simp] theorem Display.pixel_clear (r c : Nat) : Display.clear.pixel r c = false := by
  simp [Display.pixel, Display.clear]

/-- Row and column are taken modulo the grid. -/
theorem Display.pixel_mod (d : Display) (r c : Nat) : d.pixel (r % 32) (c % 64) = d.pixel r c := by
  simp [Display.pixel]

/-- A flip changes its own pixel and no other. -/
theorem Display.pixel_flip (d : Display) (r c r' c' : Nat) :
    (d.flip r c).pixel r' c' =
      (d.pixel r' c' ^^ decide (r' % 32 = r % 32 ∧ c' % 64 = c % 64)) := by
  have hlt : c' % 64 < 64 := Nat.mod_lt _ (by decide)
  simp only [Display.pixel, Display.flip, Vector.getElem_set]
  by_cases hr : r % 32 = r' % 32
  · simp only [hr, if_true, true_and, BitVec.getLsbD_xor, BitVec.getLsbD_twoPow]
    by_cases hc : c % 64 = c' % 64 <;> simp [hc, hlt, eq_comm]
  · simp [hr, Ne.symm hr]

/-- Two framebuffers with the same pixels are the same. -/
theorem Display.ext_pixel (d e : Display) (h : ∀ r < 32, ∀ c < 64, d.pixel r c = e.pixel r c) : d = e := by
  apply Vector.ext
  intro r hr
  apply BitVec.eq_of_getLsbD_eq
  intro c hc
  have := h r hr c hc
  simpa [Display.pixel, Nat.mod_eq_of_lt hr, Nat.mod_eq_of_lt hc] using this

/-- One drawn pixel: a sprite bit of 1 flips it and notes whether it was set. -/
theorem drawPixel_eq (r c : Nat) (b : Byte) (p : Draw) (j : Nat) :
    drawPixel r c b p j =
      if spriteBit b j = true then
        { disp := p.disp.flip r (c + j), collide := p.collide || p.disp.pixel r (c + j) }
      else p := rfl

@[simp] theorem drawRows_nil (r c : Nat) (p : Draw) : drawRows r c [] p = p := rfl

@[simp] theorem drawRows_cons (r c : Nat) (b : Byte) (bs : List Byte) (p : Draw) :
    drawRows r c (b :: bs) p = drawRows (r + 1) c bs (drawRow r c b p) := rfl

end Sys2Proof.Machine
end

