-- ==== Sys2Proof/Tests/Slice0.lean ====
section
/-! SUPPORT. The model's own tests: words written out from the spec's encodings, one small step per test
from spec/95_test_vectors.md (the vector's id in each comment), and for each statement with hypotheses a
witness that meets them. -/

namespace Sys2Proof.Tests

open Sys2Proof Sys2Proof.Machine

/-- The reset state with some registers set. -/
def regs (l : List (Nibble × Byte)) : State := l.foldl (fun s p => s.setReg p.1 p.2) State.reset

/-- The state with bytes stored from an address on. -/
def bytesAt (a : Nat) (bs : List Byte) (s : State) : State := { s with mem := s.mem.writeBlock a bs }

/-- One step on a word placed at the state's pc. -/
def runWord (w : Nat) (s : State) : Result := step (s.withFetchWord 16 w)

/-- What is seen of the next state, if there is one. -/
def sees {α : Type} (r : Result) (f : State → α) : Option α :=
  match r with
  | .next t => some (f t)
  | .fault _ => none
  | .refused _ => none

/-- The policies with one of them other than the default. -/
def flagLast : Params := { defaultParams with vfWriteOrder := .flagLast }
def shiftX : Params := { defaultParams with shiftSource := .x }
def skipInvalid : Params := { defaultParams with invalidOpcode := .skip }

/-- A halted RUN of a given record. -/
def haltedAt (k : FaultKind) (pc w : Word) : RunState := .halted { kind := k, pc := pc, word := some w }

/-- The keypad snapshots: only key k, and only keys j and k. -/
def key (k : Nat) : BitVec 16 := BitVec.twoPow 16 k
def keys (j k : Nat) : BitVec 16 := key j ||| key k

/-! ## Decoding: a word written out from the encoding of each row (30_encoding.md R91, R94) -/

/-- 00E0, 00EE, 0nnn. -/
theorem test_decode_system :
    decode 0x00E0#16 = .instr .cls ∧ decode 0x00EE#16 = .instr .ret ∧
    decode 0x0123#16 = .instr (.sys 0x123#12) ∧ decode 0x0FFF#16 = .instr (.sys 0xFFF#12) ∧
    decode 0x0000#16 = .instr (.sys 0x000#12) := by decide

/-- 1nnn, 2nnn, Bnnn. -/
theorem test_decode_jumps :
    decode 0x1234#16 = .instr (.jp 0x234#12) ∧ decode 0x2ABC#16 = .instr (.call 0xABC#12) ∧
    decode 0xBFFE#16 = .instr (.jpV0 0xFFE#12) := by decide

/-- 3xkk, 4xkk, 5xy0, 9xy0. -/
theorem test_decode_skips :
    decode 0x3342#16 = .instr (.seImm 0x3#4 0x42#8) ∧ decode 0x4A01#16 = .instr (.sneImm 0xA#4 0x01#8) ∧
    decode 0x5120#16 = .instr (.seReg 0x1#4 0x2#4) ∧ decode 0x9A50#16 = .instr (.sneReg 0xA#4 0x5#4) := by decide

/-- 6xkk, 7xkk, Cxkk. -/
theorem test_decode_immediates :
    decode 0x6A2F#16 = .instr (.ldImm 0xA#4 0x2F#8) ∧ decode 0x7101#16 = .instr (.addImm 0x1#4 0x01#8) ∧
    decode 0xC3F0#16 = .instr (.rnd 0x3#4 0xF0#8) := by decide

/-- 8xy0 to 8xy4. -/
theorem test_decode_registers :
    decode 0x8120#16 = .instr (.ldReg 0x1#4 0x2#4) ∧ decode 0x8341#16 = .instr (.orReg 0x3#4 0x4#4) ∧
    decode 0x8562#16 = .instr (.andReg 0x5#4 0x6#4) ∧ decode 0x8783#16 = .instr (.xorReg 0x7#4 0x8#4) ∧
    decode 0x89A4#16 = .instr (.addReg 0x9#4 0xA#4) := by decide

/-- 8xy5, 8xy6, 8xy7, 8xyE. -/
theorem test_decode_subtracts_shifts :
    decode 0x8BC5#16 = .instr (.sub 0xB#4 0xC#4) ∧ decode 0x8DE6#16 = .instr (.shr 0xD#4 0xE#4) ∧
    decode 0x8F07#16 = .instr (.subn 0xF#4 0x0#4) ∧ decode 0x812E#16 = .instr (.shl 0x1#4 0x2#4) := by decide

/-- Annn, Fx1E, Fx29, Fx33, Fx55, Fx65. -/
theorem test_decode_index :
    decode 0xA300#16 = .instr (.ldI 0x300#12) ∧ decode 0xF31E#16 = .instr (.addIVx 0x3#4) ∧
    decode 0xF229#16 = .instr (.ldFVx 0x2#4) ∧ decode 0xFA33#16 = .instr (.ldBVx 0xA#4) ∧
    decode 0xF155#16 = .instr (.ldMemVx 0x1#4) ∧ decode 0xFF65#16 = .instr (.ldVxMem 0xF#4) := by decide

/-- Dxyn. -/
theorem test_decode_display :
    decode 0xD12F#16 = .instr (.drw 0x1#4 0x2#4 0xF#4) := by decide

/-- Ex9E, ExA1, Fx07, Fx0A, Fx15, Fx18. -/
theorem test_decode_keypad_timers :
    decode 0xE19E#16 = .instr (.skp 0x1#4) ∧ decode 0xEAA1#16 = .instr (.sknp 0xA#4) ∧
    decode 0xF507#16 = .instr (.ldVxDt 0x5#4) ∧ decode 0xF20A#16 = .instr (.ldVxK 0x2#4) ∧
    decode 0xF015#16 = .instr (.ldDtVx 0x0#4) ∧ decode 0xF318#16 = .instr (.ldStVx 0x3#4) := by decide

/-- The INVALID words of the classification table (95_test_vectors.md 2.1). -/
theorem test_decode_invalid :
    decode 0x5121#16 = .invalid .group5 ∧ decode 0x8128#16 = .invalid .group8 ∧
    decode 0x812F#16 = .invalid .group8 ∧ decode 0x912F#16 = .invalid .group9 ∧
    decode 0xE19F#16 = .invalid .groupE ∧ decode 0xF108#16 = .invalid .groupF ∧
    decode 0xF166#16 = .invalid .groupF ∧ decode 0xFFFF#16 = .invalid .groupF := by decide

/-- The byte at the lower address is the high byte (20_memory.md R64). -/
theorem test_decode_bytes :
    decodeBytes [0x6A#8, 0x2F#8, 0x11#8] = .word (.instr (.ldImm 0xA#4 0x2F#8)) [0x11#8] ∧
    decodeBytes [0x6A#8] = .tooShort ∧ decodeBytes [] = .tooShort := by decide

/-- A table row's word (30_encoding.md R94). -/
theorem test_decode_table_word :
    decodeTableWord 16 0x8125 = some (.sub 0x1#4 0x2#4) ∧ decodeTableWord 16 0x8128 = none := by decide

/-- SYS with the operand of CLS or of RET is refused (30_encoding.md R96). -/
theorem test_wellFormed_smoke :
    (Instr.sys 0x0E0#12).wf = false ∧ (Instr.sys 0x0EE#12).wf = false ∧ (Instr.sys 0x0E1#12).wf = true ∧
    decode (encode (.sys 0x0E0#12)) = .instr .cls := by decide

/-! ## One step per test -/

/-- E1. -/
theorem test_oddPc :
    sees (runWord 0x6012 ({ State.reset with pc := 0x201#16 })) (fun t => (t.reg 0x0#4, t.pc)) =
      some (0x12#8, 0x203#16) := by decide

/-- E2. -/
theorem test_lastPc :
    sees (runWord 0x6012 ({ State.reset with pc := 0xFFE#16 })) (fun t => (t.reg 0x0#4, t.run)) =
      some (0x00#8, haltedAt (.pcOutOfRange 0x1000) 0xFFE#16 0x6012#16) := by decide

/-- E3, F4. -/
theorem test_invalid_abort :
    sees (runWord 0x8008 ({ State.reset with pc := 0xFFE#16 })) (fun t => (t.run, t.pc)) =
      some (haltedAt .invalidOpcode 0xFFE#16 0x8008#16, 0xFFE#16) := by decide

/-- E4. -/
theorem test_invalid_skip :
    sees (runWord 0x8008 ({ State.reset with params := skipInvalid })) (fun t => (t.pc, t.run)) =
      some (0x202#16, .running) := by decide

/-- E5. -/
theorem test_invalid_skip_end :
    sees (runWord 0xFFFF ({ State.reset with params := skipInvalid, pc := 0xFFE#16 })) (fun t => t.run) =
      some (haltedAt (.pcOutOfRange 0x1000) 0xFFE#16 0xFFFF#16) := by decide

/-- C1. -/
theorem test_ret :
    sees (runWord 0x00EE ({ State.reset with
      pc := 0x300#16, sp := 2, stack := (State.reset.stack.set 0 0x204#16).set 1 0x40A#16 })) (fun t => (t.pc, t.sp)) =
      some (0x40A#16, 1) := by decide

/-- C2, F3. -/
theorem test_ret_underflow :
    sees (runWord 0x00EE ({ State.reset with pc := 0xFFE#16 })) (fun t => t.run) =
      some (haltedAt .stackUnderflow 0xFFE#16 0x00EE#16) := by decide

/-- C5. -/
theorem test_sys :
    sees (runWord 0x00E1 (State.reset)) (fun t => (t.pc, t.run)) =
      some (0x202#16, .running) := by decide

/-- C6. -/
theorem test_jp :
    sees (runWord 0x1FFE (State.reset)) (fun t => t.pc) =
      some (0xFFE#16) := by decide

/-- C7. -/
theorem test_jp_outOfRange :
    sees (runWord 0x1FFF (State.reset)) (fun t => (t.run, t.pc)) =
      some (haltedAt (.pcOutOfRange 0xFFF) 0x200#16 0x1FFF#16, 0x200#16) := by decide

/-- C9. -/
theorem test_call :
    sees (runWord 0x2400 ({ State.reset with pc := 0x260#16, sp := 15 })) (fun t => (t.pc, t.sp, t.stack[15])) =
      some (0x400#16, 16, 0x262#16) := by decide

/-- C10, F1. -/
theorem test_call_overflow :
    sees (runWord 0x2FFF ({ State.reset with pc := 0x260#16, sp := 16 })) (fun t => t.run) =
      some (haltedAt .stackOverflow 0x260#16 0x2FFF#16) := by decide

/-- C14. -/
theorem test_seImm :
    sees (runWord 0x3342 ({ regs [(0x3#4, 0x42#8)] with pc := 0xFFC#16 })) (fun t => t.run) =
      some (haltedAt (.pcOutOfRange 0x1000) 0xFFC#16 0x3342#16) := by decide

/-- C15. -/
theorem test_seImm_not :
    sees (runWord 0x3342 ({ regs [(0x3#4, 0x43#8)] with pc := 0xFFC#16 })) (fun t => t.pc) =
      some (0xFFE#16) := by decide

/-- C16. -/
theorem test_sneImm :
    sees (runWord 0x4300 (regs [(0x3#4, 0x01#8)])) (fun t => t.pc) =
      some (0x204#16) := by decide

/-- C17. -/
theorem test_sneImm_not :
    sees (runWord 0x4301 (regs [(0x3#4, 0x01#8)])) (fun t => t.pc) =
      some (0x202#16) := by decide

/-- C18. -/
theorem test_seReg :
    sees (runWord 0x5550 (State.reset)) (fun t => t.pc) =
      some (0x204#16) := by decide

/-- C25. -/
theorem test_sneReg :
    sees (runWord 0x9120 (regs [(0x1#4, 0x07#8), (0x2#4, 0x08#8)])) (fun t => t.pc) =
      some (0x204#16) := by decide

/-- C19. -/
theorem test_sneReg_not :
    sees (runWord 0x9550 (State.reset)) (fun t => t.pc) =
      some (0x202#16) := by decide

/-- C22. -/
theorem test_jpV0 :
    sees (runWord 0xBFFE (State.reset)) (fun t => t.pc) =
      some (0xFFE#16) := by decide

/-- C24. -/
theorem test_jpV0_notMasked :
    sees (runWord 0xBFFF (regs [(0x0#4, 0xFF#8)])) (fun t => t.run) =
      some (haltedAt (.pcOutOfRange 0x10FE) 0x200#16 0xBFFF#16) := by decide

/-- A1. -/
theorem test_ldImm :
    sees (runWord 0x6A2F (State.reset)) (fun t => (t.reg 0xA#4, t.pc)) =
      some (0x2F#8, 0x202#16) := by decide

/-- A2. -/
theorem test_addImm :
    sees (runWord 0x7101 (regs [(0x1#4, 0xFF#8), (0xF#4, 0x55#8)])) (fun t => (t.reg 0x1#4, t.reg 0xF#4)) =
      some (0x00#8, 0x55#8) := by decide

/-- A4. -/
theorem test_ldReg :
    sees (runWord 0x8150 (regs [(0x5#4, 0x33#8)])) (fun t => (t.reg 0x1#4, t.reg 0x5#4)) =
      some (0x33#8, 0x33#8) := by decide

/-- A5. -/
theorem test_orReg :
    sees (runWord 0x8121 (regs [(0x1#4, 0x0F#8), (0x2#4, 0xF0#8), (0xF#4, 0x77#8)])) (fun t => (t.reg 0x1#4, t.reg 0xF#4)) =
      some (0xFF#8, 0x77#8) := by decide

/-- A6. -/
theorem test_andReg :
    sees (runWord 0x8122 (regs [(0x1#4, 0x3C#8), (0x2#4, 0x0F#8), (0xF#4, 0x77#8)])) (fun t => (t.reg 0x1#4, t.reg 0xF#4)) =
      some (0x0C#8, 0x77#8) := by decide

/-- A7. -/
theorem test_xorReg :
    sees (runWord 0x8123 (regs [(0x1#4, 0x3C#8), (0x2#4, 0x0F#8), (0xF#4, 0x77#8)])) (fun t => (t.reg 0x1#4, t.reg 0xF#4)) =
      some (0x33#8, 0x77#8) := by decide

/-- A11. -/
theorem test_addReg_carry :
    sees (runWord 0x8124 (regs [(0x1#4, 0x80#8), (0x2#4, 0x80#8)])) (fun t => (t.reg 0x1#4, t.reg 0xF#4)) =
      some (0x00#8, 0x01#8) := by decide

/-- A13. -/
theorem test_addReg_intoVf :
    sees (runWord 0x8F14 (regs [(0xF#4, 0x10#8), (0x1#4, 0xF0#8)])) (fun t => t.reg 0xF#4) =
      some (0x01#8) := by decide

/-- A18. -/
theorem test_sub_borrow :
    sees (runWord 0x8125 (regs [(0x1#4, 0x00#8), (0x2#4, 0x01#8)])) (fun t => (t.reg 0x1#4, t.reg 0xF#4)) =
      some (0xFF#8, 0x00#8) := by decide

/-- A19, TABLE_ORDER. -/
theorem test_sub_intoVf :
    sees (runWord 0x8F15 (regs [(0xF#4, 0x10#8), (0x1#4, 0x01#8)])) (fun t => t.reg 0xF#4) =
      some (0x0F#8) := by decide

/-- A21. -/
theorem test_shr :
    sees (runWord 0x8126 (regs [(0x1#4, 0xAA#8), (0x2#4, 0x05#8)])) (fun t => (t.reg 0x1#4, t.reg 0xF#4)) =
      some (0x02#8, 0x01#8) := by decide

/-- A22. -/
theorem test_shr_sourceX :
    sees (runWord 0x8126 ({ regs [(0x1#4, 0xAA#8), (0x2#4, 0x05#8)] with params := shiftX })) (fun t => (t.reg 0x1#4, t.reg 0xF#4)) =
      some (0x55#8, 0x00#8) := by decide

/-- A25. -/
theorem test_subn :
    sees (runWord 0x8127 (regs [(0x1#4, 0x07#8), (0x2#4, 0x05#8)])) (fun t => (t.reg 0x1#4, t.reg 0xF#4)) =
      some (0xFE#8, 0x00#8) := by decide

/-- A26, FLAG_LAST. -/
theorem test_subn_flagLast :
    sees (runWord 0x8F27 ({ regs [(0xF#4, 0x01#8), (0x2#4, 0x10#8)] with params := flagLast })) (fun t => t.reg 0xF#4) =
      some (0x01#8) := by decide

/-- A28. -/
theorem test_shl :
    sees (runWord 0x812E (regs [(0x2#4, 0x80#8)])) (fun t => (t.reg 0x1#4, t.reg 0xF#4)) =
      some (0x00#8, 0x01#8) := by decide

/-- A30, TABLE_ORDER. -/
theorem test_shl_intoVf :
    sees (runWord 0x8F2E (regs [(0x2#4, 0x81#8)])) (fun t => t.reg 0xF#4) =
      some (0x02#8) := by decide

/-- M1. -/
theorem test_ldI :
    sees (runWord 0xAFFF (State.reset)) (fun t => t.i) =
      some (0x0FFF#16) := by decide

/-- M2. -/
theorem test_addIVx :
    sees (runWord 0xF01E ({ regs [(0x0#4, 0xFF#8), (0xF#4, 0x33#8)] with i := 0x0FFF#16 })) (fun t => (t.i, t.reg 0xF#4)) =
      some (0x10FE#16, 0x33#8) := by decide

/-- M3. -/
theorem test_addIVx_wraps :
    sees (runWord 0xF01E ({ regs [(0x0#4, 0x01#8)] with i := 0xFFFF#16 })) (fun t => t.i) =
      some (0x0000#16) := by decide

/-- M5. -/
theorem test_ldFVx :
    sees (runWord 0xF029 (regs [(0x0#4, 0x0F#8)])) (fun t => t.i) =
      some (0x004B#16) := by decide

/-- M7. -/
theorem test_ldFVx_notMasked :
    sees (runWord 0xF029 (regs [(0x0#4, 0xFF#8)])) (fun t => t.i) =
      some (0x04FB#16) := by decide

/-- M11. -/
theorem test_ldBVx :
    sees (runWord 0xF033 ({ regs [(0x0#4, 0x80#8)] with i := 0xFFD#16 })) (fun t => (t.mem.read 0xFFD, t.mem.read 0xFFE, t.mem.read 0xFFF)) =
      some (0x01#8, 0x02#8, 0x08#8) := by decide

/-- M12. -/
theorem test_ldBVx_outOfBounds :
    sees (runWord 0xF033 ({ regs [(0x0#4, 0x80#8)] with i := 0xFFE#16 })) (fun t => (t.run, t.mem.read 0xFFE)) =
      some (haltedAt (.memOutOfBounds 0x1000) 0x200#16 0xF033#16, 0x00#8) := by decide

/-- M16. -/
theorem test_ldMemVx :
    sees (runWord 0xF055 ({ regs [(0x0#4, 0x11#8), (0x1#4, 0x22#8)] with i := 0x300#16 })) (fun t => (t.mem.read 0x300, t.mem.read 0x301, t.i)) =
      some (0x11#8, 0x00#8, 0x300#16) := by decide

/-- M15. -/
theorem test_ldMemVx_outOfBounds :
    sees (runWord 0xFF55 ({ regs [(0x0#4, 0xAB#8)] with i := 0xFF1#16 })) (fun t => (t.run, t.mem.read 0xFF1)) =
      some (haltedAt (.memOutOfBounds 0x1000) 0x200#16 0xFF55#16, 0x00#8) := by decide

/-- M17. -/
theorem test_ldVxMem :
    sees (runWord 0xFF65 (bytesAt 0x300 [0x01#8] (bytesAt 0x30F [0xEE#8] { State.reset with i := 0x300#16 }))) (fun t => (t.reg 0x0#4, t.reg 0xF#4, t.i)) =
      some (0x01#8, 0xEE#8, 0x300#16) := by decide

/-- M18. -/
theorem test_ldVxMem_outOfBounds :
    sees (runWord 0xF165 (bytesAt 0xFFF [0x12#8] { regs [(0x0#4, 0x77#8)] with i := 0xFFF#16 })) (fun t => (t.run, t.reg 0x0#4)) =
      some (haltedAt (.memOutOfBounds 0x1000) 0x200#16 0xF165#16, 0x77#8) := by decide

/-- A32: a draw is taken even when kk = 0. -/
theorem test_rnd_draws :
    sees (runWord 0xC300 (regs [(0x3#4, 0xFF#8)])) (fun t => (t.draws, t.pc, t.run)) =
      some (1, 0x202#16, .running) := by decide

/-- A32: no bit of the drawn byte is kept; the drawn byte itself is a free value. -/
theorem test_rnd_masks :
    sees (runWord 0xC300 State.reset) (fun t => t.reg 0x3#4) = some 0x00#8 := by
  show some (Config.randByte 0 &&& 0x00#8) = some 0x00#8
  simp

/-- D1. -/
theorem test_cls :
    sees (runWord 0x00E0 ({ State.reset with disp := (Display.clear.flip 0 0).flip 31 63 })) (fun t => (t.disp, t.redraw)) =
      some (Display.clear, true) := by decide

/-- D3. -/
theorem test_drw_wraps :
    sees (runWord 0xD011 (bytesAt 0x300 [0xC0#8] { regs [(0x0#4, 0x3F#8), (0x1#4, 0x1F#8)] with i := 0x300#16 })) (fun t => (t.disp, t.reg 0xF#4)) =
      some ((Display.clear.flip 31 63).flip 31 0, 0x00#8) := by decide

/-- D4 and D6 together: VF is read as the column; (2,5) is set, (2,6) unset. -/
theorem test_drw_collides :
    sees (runWord 0xDF01 (bytesAt 0x300 [0xC0#8] { regs [(0xF#4, 0x05#8), (0x0#4, 0x02#8)] with
      i := 0x300#16, disp := Display.clear.flip 2 6 })) (fun t => (t.disp, t.reg 0xF#4)) =
      some (Display.clear.flip 2 5, 0x01#8) := by decide

/-- K1. -/
theorem test_skp :
    sees (runWord 0xE19E ({ regs [(0x1#4, 0x05#8)] with keys := key 5 })) (fun t => t.pc) =
      some (0x204#16) := by decide

/-- K5. -/
theorem test_skp_noKey :
    sees (runWord 0xE19E (regs [(0x1#4, 0x10#8)])) (fun t => t.run) =
      some (haltedAt (.keyIndexOutOfRange 0x10#8) 0x200#16 0xE19E#16) := by decide

/-- K4. -/
theorem test_sknp :
    sees (runWord 0xE1A1 ({ regs [(0x1#4, 0x05#8)] with keys := key 5 })) (fun t => t.pc) =
      some (0x202#16) := by decide

/-- K3. -/
theorem test_sknp_notPressed :
    sees (runWord 0xE1A1 (regs [(0x1#4, 0x05#8)])) (fun t => t.pc) =
      some (0x204#16) := by decide

/-- K6. -/
theorem test_ldVxDt :
    sees (runWord 0xF507 ({ State.reset with dt := 0x3C#8 })) (fun t => t.reg 0x5#4) =
      some (0x3C#8) := by decide

/-- K10. -/
theorem test_ldVxK :
    sees (runWord 0xF20A ({ State.reset with keys := keys 2 9, lastKeys := key 2 })) (fun t => (t.reg 0x2#4, t.pc, t.lastKeys)) =
      some (0x09#8, 0x202#16, keys 2 9) := by decide

/-- K8. -/
theorem test_ldVxK_parked :
    sees (runWord 0xF20A ({ regs [(0x2#4, 0x99#8)] with keys := key 3, lastKeys := key 3 })) (fun t => (t.reg 0x2#4, t.pc)) =
      some (0x99#8, 0x200#16) := by decide

/-- K12. -/
theorem test_ldDtVx :
    sees (runWord 0xF015 (regs [(0x0#4, 0x3C#8)])) (fun t => t.dt) =
      some (0x3C#8) := by decide

/-- K13. -/
theorem test_ldStVx :
    sees (runWord 0xF018 (regs [(0x0#4, 0x0A#8)])) (fun t => (t.st, t.soundActive)) =
      some (0x0A#8, true) := by decide

/-- T1. -/
theorem test_tick :
    sees (step ({ State.reset with dt := 0x01#8, redraw := true, schedule := [.tick] })) (fun t => (t.dt, t.st, t.redraw, t.redrawSignals)) =
      some (0x00#8, 0x00#8, false, 1) := by decide

/-- T2. -/
theorem test_tick_noSignal :
    sees (step ({ State.reset with st := 0x05#8, schedule := [.tick] })) (fun t => (t.dt, t.st, t.redraw, t.redrawSignals)) =
      some (0x00#8, 0x04#8, false, 0) := by decide

/-- T4. -/
theorem test_halted_stops :
    step { State.reset with run := haltedAt .invalidOpcode 0x200#16 0x5121#16, schedule := [.tick] } =
      .fault .halted := rfl

/-- 60_exceptions.md R313. -/
theorem test_quit_ends :
    step { State.reset with schedule := [.quit] } = .fault .runEnded := rfl

/-- 10_state.md R32. -/
theorem test_latch :
    sees (step ({ State.reset with schedule := [.latch (key 3)] })) (fun t => (t.keys, t.lastKeys, t.schedule)) =
      some (key 3, 0#16, []) := by decide

/-- Glyphs 0 to 3 after reset, from the table of 10_state.md R41. -/
theorem test_font_glyphs_0_to_3 :
    (List.range 20).map State.reset.mem.read =
      [0xF0#8, 0x90#8, 0x90#8, 0x90#8, 0xF0#8, 0x20#8, 0x60#8, 0x20#8, 0x20#8, 0x70#8,
       0xF0#8, 0x10#8, 0xF0#8, 0x80#8, 0xF0#8, 0xF0#8, 0x10#8, 0xF0#8, 0x10#8, 0xF0#8] := by decide

/-- Glyphs 4 to 9 after reset (10_state.md R41); glyph 6, at 0x01E, is F0 80 F0 90 F0. -/
theorem test_font_glyphs_4_to_9 :
    (List.range 30).map (fun k => State.reset.mem.read (0x014 + k)) =
      [0x90#8, 0x90#8, 0xF0#8, 0x10#8, 0x10#8, 0xF0#8, 0x80#8, 0xF0#8, 0x10#8, 0xF0#8,
       0xF0#8, 0x80#8, 0xF0#8, 0x90#8, 0xF0#8, 0xF0#8, 0x10#8, 0x20#8, 0x40#8, 0x40#8,
       0xF0#8, 0x90#8, 0xF0#8, 0x90#8, 0xF0#8, 0xF0#8, 0x90#8, 0xF0#8, 0x10#8, 0xF0#8] := by decide

/-- Glyphs A to F after reset (10_state.md R41). -/
theorem test_font_glyphs_A_to_F :
    (List.range 30).map (fun k => State.reset.mem.read (0x032 + k)) =
      [0xF0#8, 0x90#8, 0xF0#8, 0x90#8, 0x90#8, 0xE0#8, 0x90#8, 0xE0#8, 0x90#8, 0xE0#8,
       0xF0#8, 0x80#8, 0x80#8, 0x80#8, 0xF0#8, 0xE0#8, 0x90#8, 0x90#8, 0x90#8, 0xE0#8,
       0xF0#8, 0x80#8, 0xF0#8, 0x80#8, 0xF0#8, 0xF0#8, 0x80#8, 0xF0#8, 0x80#8, 0x80#8] := by decide

/-- From reset with an empty program the zero word at 0x200 is a SYS (42_control_flow.md R162). -/
theorem test_reset_runs :
    sees (step (State.reset)) (fun t => (t.pc, t.run)) =
      some (0x202#16, .running) := by decide

/-! ## Witnesses: for each statement with hypotheses, a state and operands that meet them -/

theorem test_witness_DecodeOfEncodeIsTheInstruction :
    (Instr.drw 0x1#4 0x2#4 0xF#4).wf = true ∧ (Instr.sys 0xFFF#12).wf = true ∧ Instr.ret.wf = true := by decide

theorem test_witness_EncodeOfDecodeIsTheWord :
    decode 0xFF65#16 = .instr (.ldVxMem 0xF#4) ∧ decode 0x0000#16 = .instr (.sys 0x000#12) := by decide

theorem test_witness_ValidWordsMatchExactlyTheirRow :
    decode 0x00EE#16 = .instr .ret ∧ (⟨0x0000#16, 0xF000#16⟩ : OpcodeRow) ∈ opcodeMap ∧
    (⟨0x0000#16, 0xF000#16⟩ : OpcodeRow).matchesWord 0x00EE#16 = true ∧ decode 0xFFFF#16 = .invalid .groupF := by decide

/-- One word for each group but 5xyN, and one that meets the clause of the valid words (R95). -/
theorem test_witness_InvalidWordsAreExactlyTheGroups :
    decode 0x9AB1#16 = .invalid .group9 ∧ decode 0x812D#16 = .invalid .group8 ∧
    decode 0xE19F#16 = .invalid .groupE ∧ decode 0xF100#16 = .invalid .groupF ∧ fieldOp 0xDFFF#16 = 0xD#4 := by decide

theorem test_witness_InstructionBytesAreBigEndian :
    State.reset.pc.toNat ≤ 0xFFE ∧ ({ State.reset with pc := 0xFFE#16 } : State).pc.toNat ≤ 0xFFE := by decide

theorem test_witness_StepRunsTheDecodedInstruction :
    ∃ s : State, s.run = .running ∧ s.nextEvent = .step ∧ s.pc.toNat ≤ 0xFFE ∧ s.schedule = [] ∧
      decode (wordOfBytes (s.mem.read s.pc.toNat) (s.mem.read (s.pc.toNat + 1))) =
        .instr (.ldImm 0xA#4 0x2F#8) := by
  exact ⟨bytesAt 0xFFE [0x6A#8, 0x2F#8] { State.reset with pc := 0xFFE#16 }, by decide, by decide, by decide, by decide, by decide⟩

/-- Both policies, at and beyond the last pc from which pc + 2 is in range. -/
theorem test_witness_InvalidWordFollowsThePolicy :
    let s := bytesAt 0xFFC [0x81#8, 0x28#8, 0x81#8, 0x28#8] { State.reset with pc := 0xFFC#16 }
    s.fetch = some 0x8128#16 ∧ ({ s with pc := 0xFFE#16 } : State).fetch = some 0x8128#16 ∧
      decode 0x8128#16 = .invalid .group8 ∧ s.params.invalidOpcode = .abort ∧
      ({ s with params := skipInvalid } : State).params.invalidOpcode = .skip ∧
      s.pc.toNat + 2 ≤ 0xFFE ∧ 0xFFE < ({ s with pc := 0xFFE#16 } : State).pc.toNat + 2 := by decide

theorem test_witness_FetchOutsideMemoryFaults :
    0xFFE < ({ State.reset with pc := 0xFFF#16 } : State).pc.toNat := by decide

theorem test_witness_OnlyHaltAndQuitStopTheMachine :
    State.reset.run = .running ∧ State.reset.nextEvent ≠ .quit ∧
    ({ State.reset with schedule := [.quit] } : State).nextEvent = .quit := by decide

theorem test_witness_TimerTickCountsDownAndSignals :
    let s : State := { State.reset with redraw := true, dt := 0x00#8, st := 0xFF#8, schedule := [.tick] }
    s.run = .running ∧ s.nextEvent = .tick ∧
      ({ s with redraw := false } : State).run = .running ∧ ({ s with redraw := false } : State).nextEvent = .tick := by decide

theorem test_witness_KeypadLatchWritesOnlyKeys :
    ({ State.reset with schedule := [.latch (keys 0 15)] } : State).run = .running ∧
    ({ State.reset with schedule := [.latch (keys 0 15)] } : State).nextEvent = .latch (keys 0 15) := by decide

theorem test_witness_BootLeavesTheResetValues :
    [0x12#8, 0x00#8].length % 2 = 0 ∧ [0x12#8, 0x00#8].length ≤ 3584 ∧
    (List.replicate 3584 0xFF#8).length % 2 = 0 ∧ (List.replicate 3584 0xFF#8).length ≤ 3584 := by
  simp only [List.length_replicate]; decide

/-- W8, and one word too many. -/
theorem test_witness_BootRejectsBadPrograms :
    [0x60#8, 0x01#8, 0x00#8].length % 2 = 1 ∧ 3584 < (List.replicate 3586 0x00#8).length := by
  simp only [List.length_replicate]; decide

/-- SYS at the last pc; the same states meet FaultRecordNamesTheInstruction. -/
theorem test_witness_FaultingStepChangesOnlyRun :
    ({ State.reset with pc := 0xFFE#16 } : State).run = .running ∧
    ∃ t : State, instructionStep { State.reset with pc := 0xFFE#16 } = .next t ∧
      t.run = haltedAt (.pcOutOfRange 0x1000) 0xFFE#16 0x0000#16 := ⟨by decide, _, rfl, by decide⟩

/-- A fetch fault. -/
theorem test_witness_FaultRecordNamesTheInstruction :
    ({ State.reset with pc := 0xFFF#16 } : State).run = .running ∧
    ∃ (t : State) (r : FaultRecord), instructionStep { State.reset with pc := 0xFFF#16 } = .next t ∧
      t.run = .halted r := ⟨by decide, _, _, rfl, rfl⟩

/-- Each kind an instruction can raise. -/
theorem test_witness_FaultsHaveOnlyTheirListedCauses :
    ∀ p ∈ ([(.call 0x400#12, { State.reset with sp := 16 }, .stackOverflow), (.ret, State.reset, .stackUnderflow),
      (.ldBVx 0x0#4, { State.reset with i := 0xFFE#16 }, .memOutOfBounds 0x1000),
      (.jp 0xFFF#12, State.reset, .pcOutOfRange 0xFFF),
      (.skp 0x1#4, regs [(0x1#4, 0x10#8)], .keyIndexOutOfRange 0x10#8)] : List (Instr × State × FaultKind)),
      p.2.1.run = .running ∧
        sees (exec p.1 p.2.1) (fun t => t.run) = some (haltedAt p.2.2 0x200#16 (encode p.1)) := by decide

/-- One address too far, for each form. -/
theorem test_witness_MemoryFaultNamesTheLowestAddress :
    let s : State := { State.reset with i := 0xFFE#16 }
    0 < (0x3#4).toNat ∧ 0x1000 < s.i.toNat + (0x3#4).toNat ∧ 0x1000 < s.i.toNat + 3 ∧
      0x1000 < s.i.toNat + (0x2#4).toNat + 1 := by decide

theorem test_witness_StraightLineInstructionsFaultAtTheEnd :
    straightLine .cls = true ∧ straightLine (.ldStVx 0xF#4) = true ∧
    0xFFE < ({ State.reset with pc := 0xFFD#16 } : State).pc.toNat + 2 := by decide

theorem test_witness_CompletedStepCommitsPcAndKeys :
    ∃ t : State, exec (.jp 0xFFE#12) { State.reset with keys := key 3 } = .next t ∧ t.run = .running := ⟨_, rfl, by decide⟩

/-- A state with listed memory, about to store. -/
theorem test_witness_EveryStepKeepsTheInvariant :
    ∃ (s t : State), s.Inv ∧ s.mem ≠ [] ∧ step s = .next t := by
  refine ⟨bytesAt 0x200 [0xF0#8, 0x55#8] { regs [(0x0#4, 0x11#8)] with i := 0xFFF#16 }, _, ⟨by decide, by decide⟩,
    by decide, rfl⟩

/-- Each of the five ways. -/
theorem test_witness_PcStaysOnlyByWaitOrSelfJump :
    ∀ p ∈ ([(.ldVxK 0x0#4, State.reset), (.jp 0x200#12, State.reset), (.call 0x200#12, State.reset),
      (.jpV0 0x1FF#12, regs [(0x0#4, 0x01#8)]),
      (.ret, { State.reset with sp := 1, stack := State.reset.stack.set 0 0x200#16 })] : List (Instr × State)),
      sees (exec p.1 p.2) (fun t => (t.run, t.pc)) = some (.running, p.2.pc) := by decide

theorem test_witness_SpecialStateHasOnlyItsWriters :
    ∃ t : State, exec (.ldI 0x300#12) State.reset = .next t ∧ t.i ≠ State.reset.i := ⟨_, rfl, by decide⟩

/-- The other clauses. -/
theorem test_witness_SpecialStateHasOnlyItsWriters_others :
    sees (exec .cls State.reset) (fun t => decide (t.redraw ≠ State.reset.redraw)) = some true ∧
    sees (exec (.call 0x300#12) State.reset)
      (fun t => decide (t.stack ≠ State.reset.stack) && decide (t.sp ≠ State.reset.sp)) = some true ∧
    sees (exec (.ldDtVx 0x1#4) (regs [(0x1#4, 0x01#8)])) (fun t => decide (t.dt ≠ 0x00#8)) = some true ∧
    sees (exec (.ldStVx 0x1#4) (regs [(0x1#4, 0x01#8)])) (fun t => decide (t.st ≠ 0x00#8)) = some true := by decide

/-- A store to the last address. -/
theorem test_witness_OnlyTwoInstructionsWriteMemory :
    ∃ t : State, exec (.ldMemVx 0x0#4) { regs [(0x0#4, 0x11#8)] with i := 0xFFF#16 } = .next t ∧
      t.mem.read 0xFFF ≠ ({ regs [(0x0#4, 0x11#8)] with i := 0xFFF#16 } : State).mem.read 0xFFF := ⟨_, rfl, by decide⟩

theorem test_witness_RegistersHaveOnlyTheirWriters :
    ∃ t : State, exec (.sub 0x1#4 0x2#4) State.reset = .next t ∧ t.reg 0xF#4 ≠ State.reset.reg 0xF#4 := ⟨_, rfl, by decide⟩

theorem test_witness_InstructionsNeverWriteHostState :
    (∃ t : State, exec .cls State.reset = .next t) ∧
    ∃ t : State, step { State.reset with schedule := [.tick] } = .next t := ⟨⟨_, rfl⟩, ⟨_, rfl⟩⟩

/-- The two clauses on pc + 2 of ClsClearsTheDisplay, SysIsANoOp, ImmediatesLoadAndAdd,
RandomByteIsMasked, DrawOfNoRowsReadsNothing and TimersAreReadAndSet. -/
theorem test_witness_pcPlus2 :
    ({ State.reset with pc := 0xFFC#16 } : State).pc.toNat + 2 ≤ 0xFFE ∧
    0xFFE < ({ State.reset with pc := 0xFFD#16 } : State).pc.toNat + 2 ∧
    0xFFE < ({ State.reset with pc := 0xFFE#16 } : State).pc.toNat + 2 := by decide

theorem test_witness_JumpGoesToItsTarget :
    (0xFFE#12).toNat ≤ 0xFFE ∧ (0xFFF#12 : Addr12) = 0xFFF#12 := by decide

theorem test_witness_CallPushesTheReturnAddress :
    ({ State.reset with sp := 15 } : State).sp.val < 16 ∧ (0xFFE#12).toNat ≤ 0xFFE ∧
    ({ State.reset with sp := 16 } : State).sp.val = 16 := by decide

/-- A popped value at and beyond the last pc; State.reset itself has SP = 0. -/
theorem test_witness_ReturnPopsTheStack :
    let s : State := { State.reset with sp := 2, stack := (State.reset.stack.set 0 0xFFE#16).set 1 0xFFF#16 }
    0 < s.sp.val ∧ (s.stack[s.sp.val - 1]'(by decide)).toNat = 0xFFF ∧
      0 < ({ s with sp := 1 } : State).sp.val ∧
      (({ s with sp := 1 } : State).stack[({ s with sp := 1 } : State).sp.val - 1]'(by decide)).toNat = 0xFFE := by decide

theorem test_witness_CallThenReturnComesBack :
    ∃ t : State, exec (.call 0xFFE#12) { State.reset with pc := 0xFFC#16, sp := 15 } = .next t ∧
      ({ State.reset with pc := 0xFFC#16, sp := 15 } : State).run = .running ∧ t.run = .running ∧
      ({ State.reset with pc := 0xFFC#16, sp := 15 } : State).pc.toNat + 2 ≤ 0xFFE := ⟨_, rfl, by decide, by decide, by decide⟩

/-- Taken and not taken, at the pcs where the clauses meet. -/
theorem test_witness_RegisterSkipsCompareAndSkip :
    let s : State := { regs [(0x3#4, 0x42#8)] with pc := 0xFFA#16 }
    s.pc.toNat + 4 ≤ 0xFFE ∧ 0xFFE < ({ s with pc := 0xFFC#16 } : State).pc.toNat + 4 ∧
      ({ s with pc := 0xFFC#16 } : State).pc.toNat + 2 ≤ 0xFFE ∧
      0xFFE < ({ s with pc := 0xFFE#16 } : State).pc.toNat + 2 ∧
      decide (s.reg 0x3#4 = 0x42#8) = true ∧ decide (s.reg 0x3#4 ≠ 0x42#8) = false ∧
        decide (s.reg 0x3#4 = s.reg 0x4#4) = false ∧ decide (s.reg 0x3#4 ≠ s.reg 0x4#4) = true := by decide

theorem test_witness_JumpV0AddsWithoutMask :
    (0xFFE#12).toNat + (State.reset.reg 0x0#4).toNat ≤ 0xFFE ∧
    0xFFE < (0xFFE#12).toNat + ((regs [(0x0#4, 0x01#8)]).reg 0x0#4).toNat := by decide

theorem test_witness_CopyAndLogicWriteOnlyVx :
    ((Instr.xorReg 0x1#4 0xF#4 = .xorReg 0x1#4 0xF#4) ∧ (fun a b : Bool => a != b) = fun a b => a != b) ∧
    ({ State.reset with pc := 0xFFC#16 } : State).pc.toNat + 2 ≤ 0xFFE ∧
    0xFFE < ({ State.reset with pc := 0xFFD#16 } : State).pc.toNat + 2 := ⟨⟨rfl, rfl⟩, by decide, by decide⟩

/-- Sums of 256 and of 255. -/
theorem test_witness_AddSetsCarry :
    let s : State := { regs [(0x1#4, 0x80#8), (0x2#4, 0x80#8), (0x3#4, 0x7F#8)] with pc := 0xFFC#16 }
    s.pc.toNat + 2 ≤ 0xFFE ∧ (0x1#4 : Nibble) ≠ 0xF#4 ∧ 255 < (s.reg 0x1#4).toNat + (s.reg 0x2#4).toNat ∧
      ¬255 < (s.reg 0x3#4).toNat + (s.reg 0x2#4).toNat ∧
      0xFFE < ({ s with pc := 0xFFD#16 } : State).pc.toNat + 2 := by decide

/-- SUB VF, V1 and SUBN V1, VF have a = 0x10 and b = 0x01 here, under both write orders. -/
theorem test_witness_SubtractionsSetNoBorrow :
    let s : State := { regs [(0x1#4, 0x01#8), (0xF#4, 0x10#8)] with pc := 0xFFC#16 }
    s.params.vfWriteOrder = .tableOrder ∧
      ({ s with params := flagLast } : State).params.vfWriteOrder = .flagLast ∧
      s.reg 0xF#4 = 0x10#8 ∧ s.reg 0x1#4 = 0x01#8 ∧ s.pc.toNat + 2 ≤ 0xFFE ∧
      0xFFE < ({ s with pc := 0xFFD#16 } : State).pc.toNat + 2 := by decide

/-- v = 0x81, f = 1 for SHR (d = 0x40) and for SHL (d = 0x02), under both sources. -/
theorem test_witness_ShiftsSetTheBitShiftedOut :
    let s : State := { regs [(0x1#4, 0xAA#8), (0x2#4, 0x81#8)] with pc := 0xFFC#16 }
    s.pc.toNat + 2 ≤ 0xFFE ∧ 0xFFE < ({ s with pc := 0xFFD#16 } : State).pc.toNat + 2 ∧
    s.params.vfWriteOrder = .tableOrder ∧ ({ s with params := flagLast } : State).params.vfWriteOrder = .flagLast ∧
    s.params.shiftSource = .y ∧ ({ s with params := shiftX } : State).params.shiftSource = .x ∧
      s.reg 0x2#4 = 0x81#8 ∧ 0x40 = (0x81#8).toNat / 2 ∧ (0x01#8).toNat = (0x81#8).toNat % 2 ∧
      0x02 = 2 * (0x81#8).toNat % 256 ∧ (0x01#8).toNat = (0x81#8).toNat / 128 := by decide

/-- A sprite byte at the last address that wraps at the right edge and collides at its second pixel. -/
theorem test_witness_DrawXorsTheSpriteAndReportsCollision :
    let s := bytesAt 0xFFF [0xC0#8] { regs [(0x0#4, 0x3F#8), (0x1#4, 0x1F#8)] with
        i := 0xFFF#16, disp := Display.clear.flip 31 0 }
    s.i.toNat + (0x1#4).toNat ≤ 0x1000 ∧ s.pc.toNat + 2 ≤ 0xFFE ∧
      0xFFE < ({ s with pc := 0xFFD#16 } : State).pc.toNat + 2 ∧
      SpriteCovers s 0x0#4 0x1#4 0x1#4 31 0 ∧ SpriteCollides s 0x0#4 0x1#4 0x1#4 ∧
      ¬SpriteCovers s 0x0#4 0x1#4 0x1#4 0 0 ∧ ¬SpriteCollides s 0x0#4 0x1#4 0x0#4 := by
  refine ⟨by decide, by decide, by decide, ⟨0, by decide, 1, by decide, by decide⟩,
    ⟨0, by decide, 1, by decide, by decide⟩, ?_, ?_⟩
  · rintro ⟨i, hi, j, hj, -, hr, -⟩
    have h0 : i = 0 := by simp at hi; omega
    subst h0
    exact absurd hr (by decide)
  · rintro ⟨i, hi, -⟩
    simp at hi

/-- D2. -/
theorem test_witness_DrawOfNoRowsReadsNothing :
    ({ State.reset with i := 0xFFFF#16, pc := 0xFFC#16 } : State).pc.toNat + 2 ≤ 0xFFE := by decide

/-- W7. -/
theorem test_witness_DrawingTwiceErases :
    let s := bytesAt 0x300 [0xFF#8] { State.reset with i := 0x300#16 }
    ∃ t u : State, (0x0#4 : Nibble) ≠ 0xF#4 ∧ (0x1#4 : Nibble) ≠ 0xF#4 ∧ s.run = .running ∧
      exec (.drw 0x0#4 0x1#4 0x1#4) s = .next t ∧ t.run = .running ∧
      exec (.drw 0x0#4 0x1#4 0x1#4) t = .next u ∧ u.run = .running ∧
      s.disp = Display.clear ∧ 0 < (0x1#4).toNat ∧ s.mem.read (s.i.toNat + 0) ≠ 0#8 := by
  refine ⟨_, _, by decide, by decide, by decide, rfl, by decide, rfl, by decide, by decide, by decide, by decide⟩

/-- The three forms at the ends of their ranges, at and beyond the last pc. -/
theorem test_witness_IndexInstructionsSetI :
    let s : State := { regs [(0x0#4, 0xFF#8)] with i := 0xFF01#16, pc := 0xFFC#16 }
    (0xFFF = (0xFFF#12).toNat) ∧ 0x0000 = (s.i.toNat + (s.reg 0x0#4).toNat) % 0x10000 ∧
      0x4FB = 5 * (s.reg 0x0#4).toNat ∧ s.pc.toNat + 2 ≤ 0xFFE ∧
      0xFFE < ({ s with pc := 0xFFD#16 } : State).pc.toNat + 2 := by decide

/-- M11, M12 and the last pc. -/
theorem test_witness_DecimalDigitsAreStored :
    let s : State := { regs [(0x0#4, 0xFF#8)] with i := 0xFFD#16, pc := 0xFFC#16 }
    s.mem.wf = true ∧ s.i.toNat + 2 ≤ 0xFFF ∧ s.pc.toNat + 2 ≤ 0xFFE ∧
      0xFFD < ({ s with i := 0xFFE#16 } : State).i.toNat ∧
      0xFFE < ({ s with pc := 0xFFE#16 } : State).pc.toNat + 2 := by decide

/-- M14, M15 and the last pc. -/
theorem test_witness_RegistersAreStored :
    let s : State := { State.reset with i := 0xFF0#16, pc := 0xFFC#16 }
    s.mem.wf = true ∧ s.i.toNat + (0xF#4).toNat ≤ 0xFFF ∧ s.pc.toNat + 2 ≤ 0xFFE ∧
      0xFFF < ({ s with i := 0xFF1#16 } : State).i.toNat + (0xF#4).toNat ∧
      0xFFE < ({ s with pc := 0xFFE#16 } : State).pc.toNat + 2 := by decide

/-- x = 0 at the last address, x = 1 one too far, and the last pc. -/
theorem test_witness_RegistersAreLoaded :
    let s : State := { State.reset with i := 0xFFF#16, pc := 0xFFC#16 }
    s.i.toNat + (0x0#4).toNat ≤ 0xFFF ∧ s.pc.toNat + 2 ≤ 0xFFE ∧ 0xFFF < s.i.toNat + (0x1#4).toNat ∧
      0xFFE < ({ s with pc := 0xFFE#16 } : State).pc.toNat + 2 := by decide

/-- W4 at the end of memory. -/
theorem test_witness_StoredRegistersLoadBack :
    let s : State := { regs [(0x0#4, 0x12#8), (0x1#4, 0x34#8)] with i := 0xFFE#16 }
    ∃ t w : State, s.mem.wf = true ∧ s.run = .running ∧ exec (.ldMemVx 0x1#4) s = .next t ∧ t.run = .running ∧
      exec (.ldVxMem 0x1#4) { State.reset with mem := t.mem, i := t.i } = .next w ∧ w.run = .running ∧
      (0x1#4).toNat ≤ (0x1#4).toNat := by
  refine ⟨_, _, by decide, by decide, rfl, by decide, rfl, by decide, by decide⟩

theorem test_witness_StoredBytesAreFetchedNext :
    let s : State := { regs [(0x1#4, 0x63#8), (0x2#4, 0x42#8)] with i := 0x201#16 }
    ∃ t : State, s.mem.wf = true ∧ s.run = .running ∧ exec (.ldMemVx 0x2#4) s = .next t ∧ t.run = .running ∧
      (0x1#4).toNat < (0x2#4).toNat ∧ t.pc.toNat = s.i.toNat + (0x1#4).toNat := by
  refine ⟨_, by decide, by decide, rfl, by decide, by decide, by decide⟩

/-- Key 15 pressed, at the pcs where the clauses meet, and an index of 16. -/
theorem test_witness_KeySkipsTestTheSnapshot :
    let s : State := { regs [(0x1#4, 0x0F#8), (0x2#4, 0x10#8)] with keys := key 15, pc := 0xFFA#16 }
    (s.reg 0x1#4).toNat ≤ 0xF ∧ s.keys.getLsbD (s.reg 0x1#4).toNat = true ∧ s.pc.toNat + 4 ≤ 0xFFE ∧
      0xFFE < ({ s with pc := 0xFFC#16 } : State).pc.toNat + 4 ∧ 0xF < (s.reg 0x2#4).toNat := by decide

/-- Parked at reset; the lowest of two new keys, at the pcs where the clauses meet. -/
theorem test_witness_KeyWaitParksOrTakesTheLowestKey :
    let s : State := { State.reset with keys := keys 5 15, lastKeys := key 2, pc := 0xFFC#16 }
    (∀ k < 16, ¬(State.reset.keys.getLsbD k = true ∧ State.reset.lastKeys.getLsbD k = false)) ∧
      State.reset.pc.toNat ≤ 0xFFE ∧ s.keys.getLsbD 5 = true ∧ s.lastKeys.getLsbD 5 = false ∧
      (∀ j < 5, ¬(s.keys.getLsbD j = true ∧ s.lastKeys.getLsbD j = false)) ∧ s.pc.toNat + 2 ≤ 0xFFE ∧
      0xFFE < ({ s with pc := 0xFFE#16 } : State).pc.toNat + 2 := by decide

theorem test_witness_RegisterFormsFrame :
    (∃ t : State, exec (.ldReg 0x1#4 0x2#4) State.reset = .next t) ∧
    Instr.ldReg 0x1#4 0x2#4 ∈ [.ldImm 0x1#4 0x00#8, .addImm 0x1#4 0x00#8, Instr.ldReg 0x1#4 0x2#4] ∧
    (∃ t : State, exec (.rnd 0x1#4 0xFF#8) State.reset = .next t) ∧
    (∃ t : State, exec (.shl 0xF#4 0x2#4) State.reset = .next t) ∧
    ∃ t : State, exec (.ldVxMem 0xF#4) { State.reset with i := 0xFF0#16 } = .next t := ⟨⟨_, rfl⟩, by decide, ⟨_, rfl⟩, ⟨_, rfl⟩, ⟨_, rfl⟩⟩

theorem test_witness_ControlFlowFrame :
    (∃ t : State, exec (.sknp 0x1#4) State.reset = .next t) ∧
    (∃ t : State, exec (.call 0x300#12) State.reset = .next t) ∧
    ∃ t : State, exec .ret { State.reset with sp := 16 } = .next t := ⟨⟨_, rfl⟩, ⟨_, rfl⟩, ⟨_, rfl⟩⟩

theorem test_witness_IndexAndTimerFrame :
    (∃ t : State, exec (.addIVx 0x1#4) State.reset = .next t) ∧
    (∃ t : State, exec (.ldDtVx 0x1#4) State.reset = .next t) ∧
    ∃ t : State, exec (.ldStVx 0x1#4) State.reset = .next t := ⟨⟨_, rfl⟩, ⟨_, rfl⟩, ⟨_, rfl⟩⟩

theorem test_witness_StoreFrame :
    (∃ t : State, exec (.ldBVx 0x1#4) { State.reset with i := 0xFFD#16 } = .next t ∧ t.run = .running) ∧
    ∃ t : State, exec (.ldMemVx 0xF#4) { State.reset with i := 0xFF0#16 } = .next t ∧ t.run = .running := ⟨⟨_, rfl, by decide⟩, ⟨_, rfl, by decide⟩⟩

theorem test_witness_DisplayFrame :
    (∃ t : State, exec .cls State.reset = .next t) ∧
    ∃ t : State, exec (.drw 0x0#4 0x1#4 0xF#4) { State.reset with i := 0xFF1#16 } = .next t ∧
      t.run = .running := ⟨⟨_, rfl⟩, ⟨_, rfl, by decide⟩⟩

/-- Steps and ticks in turn. -/
def inTurn (n : Nat) : Event := if n % 2 = 0 then .step else .tick

/-- A self-jump at 0x200 in a state with a frame to signal. -/
def selfJump : State := bytesAt 0x200 [0x12#8, 0x00#8] { State.reset with redraw := true }

/-- What stays as it is while the self-jump runs. -/
def Looping (t : State) : Prop := t.run = .running ∧ t.pc = 0x200#16 ∧ t.mem = selfJump.mem

/-- Either event leaves the self-jump looping. -/
theorem looping_step (t : State) (n : Nat) (ht : Looping t) :
    ∃ u, step { t with schedule := [inTurn n] } = .next u ∧ Looping u := by
  obtain ⟨hr, hp, hm⟩ := ht
  rcases Nat.mod_two_eq_zero_or_one n with h | h
  · have hf : State.fetch { t with schedule := [] } = some 0x1200#16 := by
      rw [State.fetch, if_pos (by simp only [hp]; decide), hp, hm]
      decide
    have hs : step { t with schedule := [.step] } = takeEvent { t with schedule := [.step] } := by
      simp only [step, runEvent, hr]
    have hi : instructionStep { t with schedule := [] } = exec (.jp 0x200#12) { t with schedule := [] } := by
      rw [instructionStep, hf]
      rfl
    refine ⟨{ t with schedule := [], pc := 0x200#16, lastKeys := t.keys }, ?_, hr, rfl, hm⟩
    rw [show inTurn n = .step by simp [inTurn, h], hs]
    exact hi.trans (commit_of_le _ (encode (.jp 0x200#12)) _ 0x200 (by decide))
  · exact ⟨timerTick { t with schedule := [] }, by
      simp [inTurn, h, step, runEvent, hr, takeEvent, State.nextEvent, State.dropEvent], hr, hp, hm⟩

/-- The self-jump's run never ends. -/
theorem selfJump_runs (n : Nat) : ∃ u, runAt inTurn selfJump n = some u ∧ Looping u := by
  induction n with
  | zero => exact ⟨selfJump, rfl, by decide, by decide, rfl⟩
  | succ n ih =>
    obtain ⟨t, ht, hl⟩ := ih
    obtain ⟨u, hu, hlu⟩ := looping_step t n hl
    exact ⟨u, by simp only [runAt, ht, hu], hlu⟩

/-- An infinite fair run with a frame to signal. -/
theorem test_witness_FairInfiniteRunsSignalEveryRedraw :
    Fair inTurn ∧ (∀ k, ∃ u, runAt inTurn selfJump k = some u) ∧
      runAt inTurn selfJump 0 = some selfJump ∧ selfJump.redraw = true := by
  refine ⟨⟨fun n => ⟨2 * n, by omega, ?_⟩, fun n => ⟨2 * n + 1, by omega, ?_⟩⟩,
    fun k => ?_, rfl, by decide⟩
  · simp [inTurn]
  · simp [inTurn]
  · obtain ⟨u, hu, -⟩ := selfJump_runs k
    exact ⟨u, hu⟩

end Sys2Proof.Tests
end

namespace Sys2Proof.Machine

/-! ## Boot with the default FONT (10_state.md R41, 70_reset_and_hazards.md R341)

Memory keeps no entry for a byte that its address reads as unlisted, and the default FONT is what the
addresses 0x000 to 0x04F read as unlisted: loading it into empty memory lists nothing. -/

/-- Writing to empty memory the byte an address reads anyway lists nothing. -/
@[simp] theorem Memory.write_nil_unlisted (a : Nat) : Memory.write [] a (Memory.unlisted a) = [] := by
  simp [Memory.write, Memory.put, Memory.entry]

theorem Memory.writeBlock_nil_unlisted (n a : Nat) :
    Memory.writeBlock [] a ((List.range' a n).map Memory.unlisted) = [] := by
  induction n generalizing a with
  | zero => rfl
  | succ n ih => simp [List.range'_succ, Memory.writeBlock, ih]

theorem fontBytes_defaultFont : fontBytes defaultFont = (List.range' 0 80).map Memory.unlisted := by
  decide

theorem boot_nil (font : Font) :
    boot font [] = .ok { State.reset with mem := Memory.writeBlock [] 0 (fontBytes font) } := rfl

theorem boot_defaultFont_nil : boot defaultFont [] = .ok State.reset := by
  rw [boot_nil, fontBytes_defaultFont, Memory.writeBlock_nil_unlisted]
  rfl

/-- Settles O16: the default FONT lists nothing in memory (`boot_defaultFont_nil`); the policies and the
bytes of glyph A are values of the fixed state State.reset. -/
theorem resetIsTheDefaultBoot : Obligations.ResetIsTheDefaultBoot := by
  unfold Obligations.ResetIsTheDefaultBoot
  have policies : State.reset.params =
      { invalidOpcode := .abort, shiftSource := .y, vfWriteOrder := .tableOrder } := rfl
  have glyphA : (List.range 5).map (fun k => State.reset.mem.read (0x032 + k)) =
      [0xF0#8, 0x90#8, 0xF0#8, 0x90#8, 0x90#8] := by decide
  exact ⟨boot_defaultFont_nil, policies, glyphA⟩

end Sys2Proof.Machine

/-! ## What an instruction writes (10_state.md R20, R22 to R39)

`exec_cases` says that an executed instruction halts, changing RUN alone, or commits its `Effect`. The
lemmas here say, once for the 35 effects, which part of the state an effect writes; the frames, the lists
of writers and the invariant follow from them. -/

namespace Sys2Proof.Machine

/-- The parts of the state the effect of instruction `i` writes in `s`, one case per kind of write: no
part at all (jumps, skips, SYS) is the first case with the registers as they are. -/
inductive Writes (i : Instr) (s : State) : State → Prop
  | regs (v : Vector Byte 16) : Writes i s { s with v := v }
  | random (v : Vector Byte 16) (d : Nat) : Writes i s { s with v := v, draws := d }
  | push (hi : ∃ nnn, i = .call nnn) (slots : Vector Word 16) (p : Fin 17) :
      Writes i s { s with stack := slots, sp := p }
  | pop (hi : i = .ret) (p : Fin 17) : Writes i s { s with sp := p }
  | index (hi : (∃ nnn, i = .ldI nnn) ∨ ∃ x, i = .addIVx x ∨ i = .ldFVx x) (a : Word) :
      Writes i s { s with i := a }
  | delay (hi : ∃ x, i = .ldDtVx x) (b : Byte) : Writes i s { s with dt := b }
  | sound (hi : ∃ x, i = .ldStVx x) (b : Byte) : Writes i s { s with st := b }
  | store (a : Nat) (bs : List Byte) : Writes i s { s with mem := s.mem.writeBlock a bs }
  | screen (hi : i = .cls ∨ ∃ x y n, i = .drw x y n) (v : Vector Byte 16) (d : Display) :
      Writes i s { s with v := v, disp := d, redraw := true }

theorem Effect.writes {i : Instr} {s u : State} {n : Nat} (he : Effect i s u n) : Writes i s u := by
  cases i with
  | cls => obtain ⟨rfl, -⟩ := he; exact .screen (.inl rfl) _ _
  | drw x y k => obtain ⟨-, rfl, -⟩ := he; exact .screen (.inr ⟨x, y, k, rfl⟩) _ _
  | ret => obtain ⟨_, rfl, -⟩ := he; exact .pop rfl _
  | call nnn => obtain ⟨_, rfl, -⟩ := he; exact .push ⟨nnn, rfl⟩ _ _
  | ldI nnn => obtain ⟨rfl, -⟩ := he; exact .index (.inl ⟨nnn, rfl⟩) _
  | addIVx x => obtain ⟨rfl, -⟩ := he; exact .index (.inr ⟨x, .inl rfl⟩) _
  | ldFVx x => obtain ⟨rfl, -⟩ := he; exact .index (.inr ⟨x, .inr rfl⟩) _
  | ldDtVx x => obtain ⟨rfl, -⟩ := he; exact .delay ⟨x, rfl⟩ _
  | ldStVx x => obtain ⟨rfl, -⟩ := he; exact .sound ⟨x, rfl⟩ _
  | ldBVx _ | ldMemVx _ => obtain ⟨-, rfl, -⟩ := he; exact .store _ _
  | rnd _ _ => obtain ⟨rfl, -⟩ := he; exact .random _ _
  | sub _ _ | shr _ _ | subn _ _ | shl _ _ =>
    obtain ⟨rfl, -⟩ := he
    rw [State.writeFlagAndReg_eq]
    exact .regs _
  | ldVxK _ => obtain ⟨-, rfl, -⟩ | ⟨_, -, rfl, -⟩ := he <;> exact .regs _
  | ldVxMem _ | skp _ | sknp _ => obtain ⟨-, rfl, -⟩ := he; exact .regs _
  | sys _ | jp _ | jpV0 _ | seImm _ _ | sneImm _ _ | seReg _ _ | sneReg _ _ | ldImm _ _ | addImm _ _
  | ldReg _ _ | orReg _ _ | andReg _ _ | xorReg _ _ | addReg _ _ | ldVxDt _ =>
    obtain ⟨rfl, -⟩ := he; exact .regs _

/-- No effect writes RUN: it is the fault that does (40_engine.md R126). -/
theorem Effect.run_eq {i : Instr} {s u : State} {n : Nat} (he : Effect i s u n) : u.run = s.run := by
  cases he.writes <;> rfl

theorem Effect.mem_wf {i : Instr} {s u : State} {n : Nat} (he : Effect i s u n)
    (hm : s.mem.wf = true) : u.mem.wf = true := by
  cases he.writes with
  | store a bs => exact Memory.writeBlock_wf bs s.mem a hm
  | _ => exact hm

/-- An effect leaves every register as it was but those of the table of 10_state.md R23. -/
theorem Effect.reg_eq {i : Instr} {s u : State} {n : Nat} {r : Nibble} (he : Effect i s u n)
    (hr : mayWriteReg i r = false) : u.reg r = s.reg r := by
  cases i with
  | ldImm x _ | addImm x _ | rnd x _ | ldReg x _ | orReg x _ | andReg x _ | xorReg x _ | ldVxDt x =>
    obtain ⟨rfl, -⟩ := he
    exact State.reg_setReg_ne s x r _ (by simpa [mayWriteReg] using hr)
  | addReg x _ =>
    obtain ⟨rfl, -⟩ := he
    simp_all [mayWriteReg, State.writeRegThenFlag_reg]
  | sub x _ | shr x _ | subn x _ | shl x _ =>
    obtain ⟨rfl, -⟩ := he
    rw [State.writeFlagAndReg_reg]
    cases s.params.vfWriteOrder <;> simp_all [mayWriteReg]
  | drw _ _ _ =>
    obtain ⟨-, rfl, -⟩ := he
    exact State.reg_setReg_ne s vf r _ (by simpa [mayWriteReg] using hr)
  | ldVxK x =>
    obtain ⟨-, rfl, -⟩ | ⟨k, -, rfl, -⟩ := he
    · rfl
    · exact State.reg_setReg_ne s x r _ (by simpa [mayWriteReg] using hr)
  | ldVxMem x =>
    obtain ⟨-, rfl, -⟩ := he
    have hx : ¬ r.toNat ≤ x.toNat := by simpa [mayWriteReg] using hr
    exact (State.loadRegs_getElem s x r.toNat r.isLt).trans (if_neg hx)
  | cls | sys _ | jp _ | jpV0 _ | seImm _ _ | sneImm _ _ | seReg _ _ | sneReg _ _ | ldI _ | addIVx _
  | ldFVx _ | ldDtVx _ | ldStVx _ => obtain ⟨rfl, -⟩ := he; rfl
  | ret | call _ | skp _ | sknp _ | ldBVx _ | ldMemVx _ => obtain ⟨-, rfl, -⟩ := he; rfl

/-! ### The invariant (10_state.md R24, assumption 5) -/

/-- An instruction that does not halt a running machine commits a pc of at most 0xFFE and its snapshot of
the keypad. -/
theorem exec_committed {i : Instr} {s t : State} (h : exec i s = .next t) (ht : t.run = .running) :
    t.pc.toNat ≤ 0xFFE ∧ t.lastKeys = s.keys := by
  obtain ⟨k, rfl⟩ | ⟨u, n, -, hn, rfl⟩ := exec_cases h
  · simp at ht
  · exact ⟨(ofNat_pc_toNat n hn).trans_le hn, rfl⟩

theorem State.Inv.commit_pc {u : State} {n : Nat} {ks : BitVec 16} (hn : n ≤ 0xFFE)
    (hm : u.mem.wf = true) : State.Inv { u with pc := BitVec.ofNat 16 n, lastKeys := ks } :=
  ⟨(ofNat_pc_toNat n hn).trans_le hn, hm⟩

theorem exec_keeps_inv {i : Instr} {s t : State} (hs : s.Inv) (h : exec i s = .next t) : t.Inv := by
  obtain ⟨k, rfl⟩ | ⟨u, n, he, hn, rfl⟩ := exec_cases h
  · exact hs
  · obtain ⟨-, hm⟩ := hs
    exact .commit_pc hn (he.mem_wf hm)

theorem execInvalid_keeps_inv {w : Word} {s t : State} (hs : s.Inv) (h : execInvalid w s = .next t) :
    t.Inv := by
  obtain ⟨-, rfl⟩ | ⟨-, h⟩ := execInvalid_cases h
  · exact hs
  · obtain ⟨hn, rfl⟩ | ⟨-, rfl⟩ := commit_cases h
    · exact .commit_pc hn hs.2
    · exact hs

theorem instructionStep_keeps_inv {s t : State} (hs : s.Inv) (h : instructionStep s = .next t) :
    t.Inv := by
  obtain ⟨-, rfl⟩ | ⟨w, -, ⟨i, -, h⟩ | ⟨g, -, h⟩⟩ := instructionStep_cases h
  · exact hs
  · exact exec_keeps_inv hs h
  · exact execInvalid_keeps_inv hs h

/-- Settles O23: a STEP keeps the invariant (`instructionStep_keeps_inv`); a tick and a latch write neither
PC nor memory. -/
theorem everyStepKeepsTheInvariant : Obligations.EveryStepKeepsTheInvariant := by
  intro s t hs h
  obtain ⟨-, ⟨-, h⟩ | ⟨-, rfl⟩ | ⟨ks, -, rfl⟩⟩ := step_cases h
  · exact instructionStep_keeps_inv (s := s.dropEvent) hs h
  · exact hs
  · exact hs

/-- Settles O13: reset's PC is 0x200 and its memory lists nothing. -/
theorem resetKeepsTheInvariant : Obligations.ResetKeepsTheInvariant :=
  ⟨by decide, Memory.wf_nil⟩

/-- Settles O22: by `exec_committed`. -/
theorem completedStepCommitsPcAndKeys : Obligations.CompletedStepCommitsPcAndKeys :=
  fun _ _ _ h ht => exec_committed h ht

/-! ### Who writes what -/

/-- What holds of the start state and of every state an effect gives holds of the state an instruction
answers, but for PC, LASTKEYS and RUN: a fault writes RUN alone, a commit PC and LASTKEYS. -/
theorem exec_frame {i : Instr} {s t : State} {W : State → Prop} (h : exec i s = .next t) (hs : W s)
    (hu : ∀ u n, Effect i s u n → W u) :
    ∃ u p l r, W u ∧ t = { u with pc := p, lastKeys := l, run := r } := by
  obtain ⟨k, rfl⟩ | ⟨u, n, he, -, rfl⟩ := exec_cases h
  · exact ⟨s, s.pc, s.lastKeys, _, hs, rfl⟩
  · exact ⟨u, _, _, u.run, hu u n he, rfl⟩

theorem exec_writes {i : Instr} {s t : State} (h : exec i s = .next t) :
    ∃ u p l r, Writes i s u ∧ t = { u with pc := p, lastKeys := l, run := r } :=
  exec_frame h (.regs s.v) fun _ _ he => he.writes

theorem exec_reg_eq {i : Instr} {s t : State} {r : Nibble} (h : exec i s = .next t)
    (hr : mayWriteReg i r = false) : t.reg r = s.reg r := by
  obtain ⟨u, p, l, q, hu, rfl⟩ :=
    exec_frame (W := fun u => u.reg r = s.reg r) h rfl fun _ _ he => he.reg_eq hr
  exact hu

/-- Settles O25: each kind of write touches its own part of the state. -/
theorem specialStateHasOnlyItsWriters : Obligations.SpecialStateHasOnlyItsWriters := by
  intro i s t h
  obtain ⟨u, p, l, r, hw, rfl⟩ := exec_writes h
  cases hw with
  | regs | random | store => simp
  | push hi | pop hi | index hi | delay hi | sound hi | screen hi => simp [hi]

/-- Settles O27: the contrapositive of `exec_reg_eq`. -/
theorem registersHaveOnlyTheirWriters : Obligations.RegistersHaveOnlyTheirWriters := by
  intro i s t r h hne
  by_contra hr
  exact hne (exec_reg_eq h (by simpa using hr))

theorem exec_hostState_eq {i : Instr} {s t : State} (h : exec i s = .next t) :
    t.keys = s.keys ∧ t.params = s.params ∧ t.schedule = s.schedule ∧
      t.redrawSignals = s.redrawSignals := by
  obtain ⟨u, p, l, r, hw, rfl⟩ := exec_writes h
  cases hw <;> exact ⟨rfl, rfl, rfl, rfl⟩

theorem execInvalid_params {w : Word} {s t : State} (h : execInvalid w s = .next t) :
    t.params = s.params := by
  obtain ⟨-, rfl⟩ | ⟨-, h⟩ := execInvalid_cases h
  · rfl
  · obtain ⟨-, rfl⟩ | ⟨-, rfl⟩ := commit_cases h <;> rfl

theorem instructionStep_params {s t : State} (h : instructionStep s = .next t) :
    t.params = s.params := by
  obtain ⟨-, rfl⟩ | ⟨w, -, ⟨i, -, h⟩ | ⟨g, -, h⟩⟩ := instructionStep_cases h
  · rfl
  · obtain ⟨-, hp, -⟩ := exec_hostState_eq h
    exact hp
  · exact execInvalid_params h

/-- Settles O28: no kind of write, and no event, touches these fields. -/
theorem instructionsNeverWriteHostState : Obligations.InstructionsNeverWriteHostState := by
  refine ⟨fun i s t h => exec_hostState_eq h, fun s t h => ?_⟩
  obtain ⟨-, ⟨-, h⟩ | ⟨-, rfl⟩ | ⟨ks, -, rfl⟩⟩ := step_cases h
  · exact (instructionStep_params h).trans s.dropEvent_params
  · rfl
  · rfl

end Sys2Proof.Machine

/-! ## Frames (R130): what else may differ after an instruction -/

namespace Sys2Proof.Machine

theorem exec_regs_frame {i : Instr} {s t : State} (h : exec i s = .next t)
    (hu : ∀ u n, Effect i s u n → ∃ v, u = { s with v := v }) :
    SameMemory s t ∧ t = { s with v := t.v, pc := t.pc, lastKeys := t.lastKeys, run := t.run } := by
  obtain ⟨_, p, l, r, ⟨v, rfl⟩, rfl⟩ := exec_frame h ⟨s.v, rfl⟩ hu
  exact ⟨fun _ => rfl, rfl⟩

/-- Settles O55: the registers are those of R23's table (`exec_reg_eq`), the rest is in the effects. -/
theorem registerFormsFrame : Obligations.RegisterFormsFrame := by
  intro x y kk i s t h
  refine ⟨fun hi => ?_, ?_, fun hi => ?_, ?_⟩
  · simp only [List.mem_cons, List.not_mem_nil, or_false] at hi
    rcases hi with rfl | rfl | rfl | rfl | rfl | rfl | rfl | rfl
    all_goals
      refine ⟨fun r hr => exec_reg_eq h (by simp [mayWriteReg, hr]), exec_regs_frame h fun u n he => ?_⟩
    iterate 7 · obtain ⟨rfl, -⟩ := he; exact ⟨_, rfl⟩
    · obtain ⟨-, rfl, -⟩ | ⟨k, -, rfl, -⟩ := he <;> exact ⟨_, rfl⟩
  · rintro rfl
    refine ⟨fun r hr => exec_reg_eq h (by simp [mayWriteReg, hr]), ?_⟩
    obtain ⟨_, p, l, r, ⟨v, d, rfl⟩, rfl⟩ :=
      exec_frame (W := fun u => ∃ v d, u = { s with v := v, draws := d }) h ⟨s.v, s.draws, rfl⟩
        fun u n he => ⟨_, _, he.1⟩
    exact ⟨fun _ => rfl, rfl⟩
  · simp only [List.mem_cons, List.not_mem_nil, or_false] at hi
    rcases hi with rfl | rfl | rfl | rfl | rfl
    all_goals
      refine ⟨fun r hr hf => exec_reg_eq h (by simp [mayWriteReg, hr, hf]),
        exec_regs_frame h fun u n he => ?_⟩
      obtain ⟨rfl, -⟩ := he
    · exact ⟨_, State.writeRegThenFlag_eq ..⟩
    iterate 4 · exact ⟨_, State.writeFlagAndReg_eq ..⟩
  · rintro rfl
    refine ⟨fun r hr => exec_reg_eq h (by simpa [mayWriteReg] using hr),
      exec_regs_frame h fun u n he => ?_⟩
    obtain ⟨-, rfl, -⟩ := he
    exact ⟨_, rfl⟩

/-- Settles O56: a jump and a skip have no write but the next pc; CALL and RET write the stack as
`State.push` and `State.pop` do. -/
theorem controlFlowFrame : Obligations.ControlFlowFrame := by
  intro x y kk nnn i s t h
  refine ⟨fun hi => ?_, ?_, ?_⟩
  · have nothing : ∀ u n, Effect i s u n → s = u := by
      intro u n he
      simp only [List.mem_cons, List.not_mem_nil, or_false] at hi
      rcases hi with rfl | rfl | rfl | rfl | rfl | rfl | rfl | rfl | rfl
      iterate 7 · obtain ⟨hu, -⟩ := he; exact hu.symm
      iterate 2 · obtain ⟨-, hu, -⟩ := he; exact hu.symm
    obtain ⟨_, p, l, r, rfl, rfl⟩ := exec_frame h rfl nothing
    exact ⟨fun _ => rfl, rfl⟩
  · rintro rfl
    obtain ⟨k, rfl⟩ | ⟨u, n, ⟨hsp, rfl, -⟩, -, rfl⟩ := exec_cases h
    · exact ⟨fun _ => rfl, fun _ _ _ => rfl, rfl⟩
    · exact ⟨fun _ => rfl, fun j hj hne => Vector.getElem_set_ne hsp hj (Ne.symm hne), rfl⟩
  · rintro rfl
    obtain ⟨k, rfl⟩ | ⟨u, n, ⟨hsp, rfl, -⟩, -, rfl⟩ := exec_cases h
    · exact ⟨fun _ => rfl, rfl⟩
    · exact ⟨fun _ => rfl, rfl⟩

/-- Settles O57: the effect of each form is one update of I, of DT or of ST. -/
theorem indexAndTimerFrame : Obligations.IndexAndTimerFrame := by
  intro x nnn i s t h
  refine ⟨fun hi => ?_, ?_, ?_⟩
  · have index : ∀ u n, Effect i s u n → ∃ a, u = { s with i := a } := by
      intro u n he
      simp only [List.mem_cons, List.not_mem_nil, or_false] at hi
      rcases hi with rfl | rfl | rfl <;> exact ⟨_, he.1⟩
    obtain ⟨_, p, l, r, ⟨a, rfl⟩, rfl⟩ := exec_frame h ⟨s.i, rfl⟩ index
    exact ⟨fun _ => rfl, rfl⟩
  · rintro rfl
    obtain ⟨_, p, l, r, ⟨b, rfl⟩, rfl⟩ :=
      exec_frame (W := fun u => ∃ b, u = { s with dt := b }) h ⟨s.dt, rfl⟩ fun u n he => ⟨_, he.1⟩
    exact ⟨fun _ => rfl, rfl⟩
  · rintro rfl
    obtain ⟨_, p, l, r, ⟨b, rfl⟩, rfl⟩ :=
      exec_frame (W := fun u => ∃ b, u = { s with st := b }) h ⟨s.st, rfl⟩ fun u n he => ⟨_, he.1⟩
    exact ⟨fun _ => rfl, rfl⟩

/-- Settles O59: both effects are one update of the display and REDRAW, and DRW's of VF besides. -/
theorem displayFrame : Obligations.DisplayFrame := by
  intro x y n s t
  constructor <;> intro h
  · obtain ⟨k, rfl⟩ | ⟨u, m, ⟨rfl, -⟩, -, rfl⟩ := exec_cases h
    · exact ⟨fun _ => rfl, rfl⟩
    · exact ⟨fun _ => rfl, rfl⟩
  · refine ⟨fun r hr => exec_reg_eq h (by simp [mayWriteReg, hr]), ?_⟩
    obtain ⟨k, rfl⟩ | ⟨u, m, ⟨-, rfl, -⟩, -, rfl⟩ := exec_cases h
    · exact ⟨fun _ => rfl, rfl⟩
    · exact ⟨fun _ => rfl, rfl⟩

/-! ### A call and its return (42_control_flow.md R160, R166) -/

/-- RET with a return address in range on the stack. -/
theorem exec_ret_of_pos (s : State) (h : 0 < s.sp.val) (ha : (s.stack[s.sp.val - 1]).toNat ≤ 0xFFE) :
    exec .ret s = .next { s with
      sp := ⟨s.sp.val - 1, by omega⟩, pc := s.stack[s.sp.val - 1], lastKeys := s.keys } := by
  simp only [exec, execRet, State.pop_of_pos s h, commit_of_le _ _ _ _ ha, BitVec.ofNat_toNat,
    BitVec.setWidth_eq]

/-- Settles O34: the slot RET pops is the one CALL pushed pc + 2 to. -/
theorem callThenReturnComesBack : Obligations.CallThenReturnComesBack := by
  intro nnn s t h _ ht hpc
  obtain ⟨k, rfl⟩ | ⟨u, n, ⟨hsp, rfl, -⟩, -, rfl⟩ := exec_cases h
  · simp at ht
  · have pushed : (s.stack.set s.sp.val (BitVec.ofNat 16 s.pcPlus2) hsp)[s.sp.val] =
        BitVec.ofNat 16 (s.pc.toNat + 2) := Vector.getElem_set_self hsp
    have target := ofNat_pc_toNat _ hpc
    refine ⟨_, ⟨exec_ret_of_pos _ (Nat.succ_pos _) ?_, ?_, rfl, rfl⟩, rfl, rfl, rfl⟩
    · simpa [pushed, target] using hpc
    · simp [pushed, target]

end Sys2Proof.Machine


/-! ## The fault record (60_exceptions.md R306)

`exec` takes the word of its record from the encoder, so the record holds the word that was fetched because
the encoder gives back every word the decoder reads. -/

namespace Sys2Proof

theorem encode_of_decode0 {nnn : Addr12} {i : Instr} (h : decode0 nnn = .instr i) :
    encode i = layoutA 0x0#4 nnn := by
  unfold decode0 at h
  split at h
  · cases h; subst_vars; decide
  · split at h
    · cases h; subst_vars; decide
    · cases h; rfl

theorem encode_of_decode8 {x y n : Nibble} {i : Instr} (h : decode8 x y n = .instr i) :
    encode i = layoutXYN 0x8#4 x y n := by
  unfold decode8 at h
  split at h <;> cases h <;> rfl

theorem encode_of_decodeE {x : Nibble} {kk : Byte} {i : Instr} (h : decodeE x kk = .instr i) :
    encode i = layoutXK 0xE#4 x kk := by
  unfold decodeE at h
  split at h <;> cases h <;> rfl

theorem encode_of_decodeF {x : Nibble} {kk : Byte} {i : Instr} (h : decodeF x kk = .instr i) :
    encode i = layoutXK 0xF#4 x kk := by
  unfold decodeF at h
  split at h <;> cases h <;> rfl

/-- The encoder gives back the word an instruction was decoded from, arm by arm of `op`. -/
theorem encode_of_decode {w : Word} {i : Instr} (h : decode w = .instr i) : encode i = w := by
  have formA : ∀ op, fieldOp w = op → layoutA op (fieldNNN w) = w := by
    rintro op rfl; exact layoutA_fields w
  have formXK : ∀ op, fieldOp w = op → layoutXK op (fieldX w) (fieldKK w) = w := by
    rintro op rfl; exact layoutXK_fields w
  have formXYN : ∀ op n, fieldOp w = op → fieldN w = n →
      layoutXYN op (fieldX w) (fieldY w) n = w := by
    rintro op n rfl rfl; exact layoutXYN_fields w
  unfold decode at h
  split at h
  case h_1 hop => exact (encode_of_decode0 h).trans (formA _ hop)
  case h_2 hop | h_3 hop | h_11 hop | h_12 hop => cases h; exact formA _ hop
  case h_4 hop | h_5 hop | h_7 hop | h_8 hop | h_13 hop => cases h; exact formXK _ hop
  case h_6 hop | h_10 hop =>
    split at h
    · cases h; exact formXYN _ _ hop ‹_›
    · cases h
  case h_9 hop => exact (encode_of_decode8 h).trans (formXYN _ _ hop rfl)
  case h_14 hop => cases h; exact formXYN _ _ hop rfl
  case h_15 hop => exact (encode_of_decodeE h).trans (formXK _ hop)
  case h_16 =>
    have hop : fieldOp w = 0xF#4 := by
      have last : ∀ op : Nibble, (∀ k < 15, op ≠ BitVec.ofNat 4 k) → op = 0xF#4 := by decide
      refine last _ fun k hk => ?_
      interval_cases k <;> assumption
    exact (encode_of_decodeF h).trans (formXK _ hop)

end Sys2Proof

namespace Sys2Proof.Machine

theorem State.fetch_of_gt (s : State) (h : 0xFFE < s.pc.toNat) : s.fetch = none :=
  if_neg (by simp only [Config.lastPc]; omega)

/-- The record of a halt holds the pc of the state it halts. -/
theorem halt_record {s : State} {k : FaultKind} {w : Option Word} {r : FaultRecord}
    (h : (s.halt k w).run = .halted r) : r.pc = s.pc ∧ r.word = w := by
  cases h
  exact ⟨rfl, rfl⟩

theorem exec_record {i : Instr} {s t : State} {r : FaultRecord} (hs : s.run = .running)
    (h : exec i s = .next t) (ht : t.run = .halted r) : r.pc = s.pc ∧ r.word = some (encode i) := by
  obtain ⟨k, rfl⟩ | ⟨u, n, he, -, rfl⟩ := exec_cases h
  · exact halt_record ht
  · have running : u.run = .running := he.run_eq.trans hs
    cases running.symm.trans ht

theorem execInvalid_record {w : Word} {s t : State} {r : FaultRecord} (hs : s.run = .running)
    (h : execInvalid w s = .next t) (ht : t.run = .halted r) : r.pc = s.pc ∧ r.word = some w := by
  obtain ⟨-, rfl⟩ | ⟨-, h⟩ := execInvalid_cases h
  · exact halt_record ht
  · obtain ⟨-, rfl⟩ | ⟨-, rfl⟩ := commit_cases h
    · cases hs.symm.trans ht
    · exact halt_record ht

/-- Settles O18: a fetch that fails leaves no word, an INVALID word is recorded as it was fetched, and an
instruction's word is the fetched one by `encode_of_decode`. -/
theorem faultRecordNamesTheInstruction : Obligations.FaultRecordNamesTheInstruction := by
  intro s t r hs h ht
  obtain ⟨hpc, rfl⟩ | ⟨w, hw, ⟨i, hi, h⟩ | ⟨g, -, h⟩⟩ := instructionStep_cases h
  · rw [s.fetch_of_gt hpc]
    exact halt_record ht
  · rw [hw, ← encode_of_decode hi]
    exact exec_record hs h ht
  · rw [hw]
    exact execInvalid_record hs h ht

/-! ## The timer tick and the keypad latch (60_exceptions.md R310, 10_state.md R32) -/

theorem step_tick {s : State} (hr : s.run = .running) (he : s.nextEvent = .tick) :
    step s = .next (timerTick s.dropEvent) := by
  simp only [step, runEvent, hr, takeEvent, he]

theorem step_latch {s : State} {ks : BitVec 16} (hr : s.run = .running)
    (he : s.nextEvent = .latch ks) : step s = .next (latchKeys ks s.dropEvent) := by
  simp only [step, runEvent, hr, takeEvent, he]

theorem countDown_toNat (t : Byte) : (countDown t).toNat = t.toNat - 1 := by
  unfold countDown
  split
  · subst_vars; rfl
  · bv_omega

theorem State.soundActive_iff (s : State) : s.soundActive = true ↔ 0 < s.st.toNat := by
  simp only [State.soundActive, bne_iff_ne]
  bv_omega

/-- Settles O11: by `step_tick`; SOUND_ACTIVE is read off the sound timer as it counts down. -/
theorem timerTickCountsDownAndSignals : Obligations.TimerTickCountsDownAndSignals := by
  intro s hr he
  have sound : (timerTick s.dropEvent).soundActive = true ↔ 1 < s.st.toNat := by
    rw [State.soundActive_iff, timerTick_st, countDown_toNat, State.dropEvent_st]
    omega
  have signals : (timerTick s.dropEvent).redrawSignals =
      s.redrawSignals + (if s.redraw = true then 1 else 0) := by
    cases h : s.redraw <;> simp [h]
  exact ⟨_, step_tick hr he, countDown_toNat s.dt, countDown_toNat s.st, rfl, signals, sound, rfl⟩

/-- Settles O12: by `step_latch`. -/
theorem keypadLatchWritesOnlyKeys : Obligations.KeypadLatchWritesOnlyKeys :=
  fun _ _ hr he => step_latch hr he

/-! ## Boot with any font and program (70_reset_and_hazards.md R341) -/

/-- The memory boot leaves: the font from 0x000, the program from 0x200. -/
def bootMemory (font : Font) (program : List Byte) : Memory :=
  Memory.writeBlock (Memory.writeBlock [] 0 (fontBytes font)) 0x200 program

theorem boot_of_loadable (font : Font) {program : List Byte} (heven : program.length % 2 = 0)
    (hlen : program.length ≤ 3584) :
    boot font program = .ok { State.reset with mem := bootMemory font program } := by
  rw [boot, if_neg (by omega), if_neg (by simp only [Config.maxProgram]; omega)]
  rfl

theorem fontBytes_eq_flatten (font : Font) : fontBytes font = font.flatten.toList := by
  simp only [fontBytes, Vector.flatten, Vector.toList_mk, Array.toList_flatten, Array.toList_map,
    List.map_map]
  rfl

@[simp] theorem fontBytes_length (font : Font) : (fontBytes font).length = 80 := by
  simp [fontBytes_eq_flatten]

theorem fontBytes_getElem (font : Font) (d k : Nat) (hd : d < 16) (hk : k < 5) :
    (fontBytes font)[5 * d + k]'(by simp; omega) = font[d][k] := by
  simp only [fontBytes_eq_flatten, Vector.getElem_toList, Vector.getElem_flatten,
    show (5 * d + k) / 5 = d by omega, show (5 * d + k) % 5 = k by omega]

theorem Memory.unlisted_of_ge {a : Nat} (h : 0x050 ≤ a) : Memory.unlisted a = 0#8 :=
  dif_neg (by omega)

/-- Below the program boot's memory reads as the font alone left it. -/
theorem bootMemory_read_low (font : Font) (program : List Byte) {a : Nat} (h : a < 0x200) :
    (bootMemory font program).read a = (Memory.writeBlock [] 0 (fontBytes font)).read a :=
  Memory.read_writeBlock_out _ _ _ _ (.inl h)

theorem bootMemory_read_font (font : Font) (program : List Byte) {d k : Nat} (hd : d < 16)
    (hk : k < 5) : (bootMemory font program).read (5 * d + k) = font[d][k] := by
  have hin := Memory.read_writeBlock_in (fontBytes font) [] 0 (5 * d + k) Memory.wf_nil
    (by simp; omega) (by simp)
  rw [bootMemory_read_low _ _ (by omega), ← fontBytes_getElem font d k hd hk, ← hin, Nat.zero_add]

theorem bootMemory_read_program (font : Font) {program : List Byte} (hlen : program.length ≤ 3584)
    {k : Nat} (hk : k < program.length) :
    (bootMemory font program).read (0x200 + k) = program[k] :=
  Memory.read_writeBlock_in _ _ _ _ (Memory.writeBlock_wf _ _ _ Memory.wf_nil) hk (by omega)

/-- Above the font, outside the program, boot's memory reads 0. -/
theorem bootMemory_read_rest (font : Font) (program : List Byte) {a : Nat} (hfont : 0x050 ≤ a)
    (hprog : a < 0x200 ∨ 0x200 + program.length ≤ a) : (bootMemory font program).read a = 0#8 := by
  rw [bootMemory, Memory.read_writeBlock_out _ _ _ _ hprog,
    Memory.read_writeBlock_out _ _ _ _ (.inr (by simpa using hfont)), Memory.read_nil,
    Memory.unlisted_of_ge hfont]

/-- Settles O14: boot is State.reset but for memory, which holds the font, the program and 0 elsewhere. -/
theorem bootLeavesTheResetValues : Obligations.BootLeavesTheResetValues := by
  intro font program heven hlen
  refine ⟨_, boot_of_loadable font heven hlen, ?_⟩
  have regs : ∀ x : Nibble, State.reset.reg x = 0#8 := by decide
  have slots : ∀ (j : Nat) (h : j < 16), State.reset.stack[j] = 0#16 := by decide
  exact ⟨regs, rfl, rfl, rfl, slots, rfl, rfl, fun r _ c _ => Display.pixel_clear r c, rfl, rfl, rfl,
    rfl, fun d k => bootMemory_read_font font program, fun k => bootMemory_read_program font hlen,
    fun a hlo hhi => bootMemory_read_rest font program hlo (.inl hhi),
    fun a hlo _ => bootMemory_read_rest font program (by omega) (.inr hlo)⟩

end Sys2Proof.Machine

/-! ## Memory and the instruction bytes (20_memory.md R64, R67 to R69, R72) -/

namespace Sys2Proof

theorem wordOfBytes_toNat (hi lo : Byte) : (wordOfBytes hi lo).toNat = 256 * hi.toNat + lo.toNat := by
  rw [wordOfBytes, BitVec.toNat_append, ← Nat.shiftLeft_add_eq_or_of_lt lo.isLt, Nat.shiftLeft_eq]
  omega

end Sys2Proof

namespace Sys2Proof.Machine

theorem State.fetch_of_le (s : State) (h : s.pc.toNat ≤ 0xFFE) :
    s.fetch = some (wordOfBytes (s.mem.read s.pc.toNat) (s.mem.read (s.pc.toNat + 1))) :=
  if_pos h

/-- Settles O6: the decoder and the fetch read `wordOfBytes`, whose value is `wordOfBytes_toNat`. -/
theorem instructionBytesAreBigEndian : Obligations.InstructionBytesAreBigEndian :=
  ⟨fun hi lo _ => ⟨_, wordOfBytes_toNat hi lo, rfl⟩,
    fun s h => ⟨_, s.fetch_of_le h, wordOfBytes_toNat _ _⟩⟩

/-! ### Who writes memory -/

/-- An instruction whose effect is to write the bytes `bs` from `a` changes memory there alone. -/
theorem exec_store_frame {i : Instr} {s t : State} {a : Nat} {bs : List Byte} (h : exec i s = .next t)
    (hu : ∀ u n, Effect i s u n → u = { s with mem := s.mem.writeBlock a bs }) :
    (∀ k : Nat, k < a ∨ a + bs.length ≤ k → t.mem.read k = s.mem.read k) ∧
      t = { s with mem := t.mem, pc := t.pc, lastKeys := t.lastKeys, run := t.run } := by
  obtain ⟨_, rfl⟩ | ⟨u, n, he, -, rfl⟩ := exec_cases h
  · exact ⟨fun _ _ => rfl, rfl⟩
  · obtain rfl := hu u n he
    exact ⟨fun k hk => Memory.read_writeBlock_out bs s.mem a k hk, rfl⟩

/-- Settles O58: Fx33 writes the three digits from I, Fx55 the x + 1 registers V0..Vx from I. -/
theorem storeFrame : Obligations.StoreFrame := by
  intro x s t
  constructor <;> intro h
  · obtain ⟨hmem, ht⟩ := exec_store_frame h fun u n ⟨_, hu, _⟩ => hu
    exact ⟨fun a ha => hmem a (by simp only [State.iAddr, decimalDigits_length] at ha ⊢; omega), ht⟩
  · obtain ⟨hmem, ht⟩ := exec_store_frame h fun u n ⟨_, hu, _⟩ => hu
    exact ⟨fun a ha => hmem a (by simp only [State.iAddr, State.regsUpTo_length] at ha ⊢; omega), ht⟩

/-- An effect leaves memory as it was, but for the effects of Fx33 and Fx55. -/
theorem Effect.mem_eq {i : Instr} {s u : State} {n : Nat} (he : Effect i s u n)
    (hB : ∀ x, i ≠ .ldBVx x) (hR : ∀ x, i ≠ .ldMemVx x) : u.mem = s.mem := by
  cases i with
  | ldBVx x => exact absurd rfl (hB x)
  | ldMemVx x => exact absurd rfl (hR x)
  | sub _ _ | shr _ _ | subn _ _ | shl _ _ =>
    obtain ⟨rfl, -⟩ := he
    exact State.writeFlagAndReg_mem ..
  | ldVxK _ => obtain ⟨-, rfl, -⟩ | ⟨_, -, rfl, -⟩ := he <;> rfl
  | ret | call _ | drw _ _ _ | skp _ | sknp _ | ldVxMem _ => obtain ⟨-, rfl, -⟩ := he; rfl
  | cls | sys _ | jp _ | jpV0 _ | seImm _ _ | sneImm _ _ | seReg _ _ | sneReg _ _ | ldImm _ _
  | addImm _ _ | ldReg _ _ | orReg _ _ | andReg _ _ | xorReg _ _ | addReg _ _ | rnd _ _ | ldI _
  | addIVx _ | ldFVx _ | ldVxDt _ | ldDtVx _ | ldStVx _ => obtain ⟨rfl, -⟩ := he; rfl

theorem exec_mem_eq {i : Instr} {s t : State} (h : exec i s = .next t)
    (hB : ∀ x, i ≠ .ldBVx x) (hR : ∀ x, i ≠ .ldMemVx x) : t.mem = s.mem := by
  obtain ⟨u, p, l, r, hu, rfl⟩ :=
    exec_frame (W := fun u => u.mem = s.mem) h rfl fun _ _ he => he.mem_eq hB hR
  exact hu

/-- Settles O26: outside Fx33 and Fx55 memory is as it was (`exec_mem_eq`), and these two change no byte
outside the range they store to (`storeFrame`). -/
theorem onlyTwoInstructionsWriteMemory : Obligations.OnlyTwoInstructionsWriteMemory := by
  intro i s t a h hne
  by_cases hB : ∃ x, i = .ldBVx x
  · obtain ⟨x, rfl⟩ := hB
    obtain ⟨outside, -⟩ := (storeFrame x s t).1 h
    have inside := mt (outside a) hne
    simp only [State.iAddr] at inside
    exact .inl ⟨x, rfl, by omega, by omega⟩
  by_cases hR : ∃ x, i = .ldMemVx x
  · obtain ⟨x, rfl⟩ := hR
    obtain ⟨outside, -⟩ := (storeFrame x s t).2 h
    have inside := mt (outside a) hne
    simp only [State.iAddr] at inside
    exact .inr ⟨x, rfl, by omega, by omega⟩
  · push Not at hB hR
    exact absurd (by rw [exec_mem_eq h hB hR]) hne

/-! ### Registers stored by Fx55 (44_index_memory.md R236 to R238) -/

/-- After Fx55 the byte at I + k is Vk, and I is as it was. -/
theorem exec_ldMemVx_stores {x : Nibble} {s t : State} (hm : s.mem.wf = true)
    (h : exec (.ldMemVx x) s = .next t) (ht : t.run = .running) :
    t.i = s.i ∧ ∀ k : Nibble, k.toNat ≤ x.toNat → t.mem.read (s.i.toNat + k.toNat) = s.reg k := by
  obtain ⟨k, rfl⟩ | ⟨u, n, ⟨hx, rfl, -⟩, -, rfl⟩ := exec_cases h
  · simp at ht
  · refine ⟨rfl, fun k hk => ?_⟩
    have stored := Memory.read_writeBlock_in (s.regsUpTo x) s.mem s.i.toNat k.toNat hm
      (by rw [State.regsUpTo_length]; omega) (by rwa [State.regsUpTo_length])
    rw [stored, State.regsUpTo_getElem, BitVec.ofNat_toNat, BitVec.setWidth_eq]

/-- After Fx65 the register Vk is the byte at I + k. -/
theorem exec_ldVxMem_loads {x k : Nibble} {u w : State} (h : exec (.ldVxMem x) u = .next w)
    (hw : w.run = .running) (hk : k.toNat ≤ x.toNat) :
    w.reg k = u.mem.read (u.i.toNat + k.toNat) := by
  obtain ⟨q, rfl⟩ | ⟨v, n, ⟨-, rfl, -⟩, -, rfl⟩ := exec_cases h
  · simp at hw
  · exact (State.loadRegs_getElem u x k.toNat k.isLt).trans (if_pos hk)

/-- Settles O50: Fx65 reads the bytes at the addresses Fx55 stored to. -/
theorem storedRegistersLoadBack : Obligations.StoredRegistersLoadBack := by
  intro x s t u w hm _ h ht hmem hi _ hload hw k hk
  obtain ⟨hti, stored⟩ := exec_ldMemVx_stores hm h ht
  rw [exec_ldVxMem_loads hload hw hk, hmem, hi, hti, stored k hk]

/-- Settles O51: the two bytes of the fetch are the stored Vk and Vk+1. -/
theorem storedBytesAreFetchedNext : Obligations.StoredBytesAreFetchedNext := by
  intro x k s t hm _ h ht hk hpc
  obtain ⟨-, stored⟩ := exec_ldMemVx_stores hm h ht
  have next : (k + 1#4).toNat = k.toNat + 1 := by bv_omega
  have hi : t.mem.read t.pc.toNat = s.reg k := by rw [hpc, stored k (by omega)]
  have lo : t.mem.read (t.pc.toNat + 1) = s.reg (k + 1#4) := by
    rw [hpc, Nat.add_assoc, ← next, stored (k + 1#4) (by omega)]
  rw [t.fetch_of_le (exec_committed h ht).1, hi, lo]

end Sys2Proof.Machine

/-! ## The encoding (30_encoding.md R91 to R95) -/

namespace Sys2Proof

open Laws

/-! ### Encode and decode are inverse -/

theorem decode_layoutA_zero (nnn : Addr12) : decode (layoutA 0x0#4 nnn) = decode0 nnn := by
  simp [decode]

theorem decode0_of_wf {nnn : Addr12} (h : (Instr.sys nnn).wf = true) :
    decode0 nnn = .instr (.sys nnn) := by
  simp only [Instr.wf, Bool.and_eq_true, bne_iff_ne] at h
  simp [decode0, h]

/-- The decoder reads every field of a layout where the layout puts it; SYS alone needs well-formedness. -/
theorem decode_encode (i : Instr) (h : i.wf = true) : decode (encode i) = .instr i := by
  cases i with
  | sys nnn => exact (decode_layoutA_zero nnn).trans (decode0_of_wf h)
  | cls | ret => decide
  | jp _ | call _ | ldI _ | jpV0 _ => simp [encode, decode]
  | seImm _ _ | sneImm _ _ | ldImm _ _ | addImm _ _ | rnd _ _ => simp [encode, decode]
  | seReg _ _ | sneReg _ _ | drw _ _ _ => simp [encode, decode]
  | ldReg _ _ | orReg _ _ | andReg _ _ | xorReg _ _ | addReg _ _ | sub _ _ | shr _ _ | subn _ _
  | shl _ _ => simp [encode, decode, decode8]
  | skp _ | sknp _ => simp [encode, decode, decodeE]
  | ldVxDt _ | ldVxK _ | ldDtVx _ | ldStVx _ | addIVx _ | ldFVx _ | ldBVx _ | ldMemVx _ | ldVxMem _ =>
    simp [encode, decode, decodeF]

/-- Settles O1: by `decode_encode`. -/
theorem decodeOfEncodeIsTheInstruction : Obligations.DecodeOfEncodeIsTheInstruction :=
  decode_encode

theorem wf_of_decode_sys {w : Word} {nnn : Addr12} (h : decode w = .instr (.sys nnn)) :
    (Instr.sys nnn).wf = true := by
  have hw : layoutA 0x0#4 nnn = w := encode_of_decode h
  rw [← hw, decode_layoutA_zero] at h
  unfold decode0 at h
  split at h
  · cases h
  · split at h
    · cases h
    · simp [Instr.wf, *]

/-- Only SYS carries an operand that well-formedness restricts. -/
theorem wf_of_decode {w : Word} {i : Instr} (h : decode w = .instr i) : i.wf = true := by
  cases i with
  | sys nnn => exact wf_of_decode_sys h
  | _ => rfl

/-- Settles O2: by `encode_of_decode` and `wf_of_decode`. -/
theorem encodeOfDecodeIsTheWord : Obligations.EncodeOfDecodeIsTheWord :=
  fun _ _ h => ⟨encode_of_decode h, wf_of_decode h⟩

/-- Settles O5: the ten words are evaluated. -/
theorem writtenOutWordsDecode : Obligations.WrittenOutWordsDecode := by
  unfold Obligations.WrittenOutWordsDecode
  decide

/-! ### The INVALID words (R95) -/

/-- The words of each group of INVALID words, by their fields (R95). -/
def InvalidGroup.Covers : InvalidGroup → Word → Prop
  | .group5, w => fieldOp w = 0x5#4 ∧ fieldN w ≠ 0x0#4
  | .group8, w => fieldOp w = 0x8#4 ∧ fieldN w ∈ [0x8#4, 0x9#4, 0xA#4, 0xB#4, 0xC#4, 0xD#4, 0xF#4]
  | .group9, w => fieldOp w = 0x9#4 ∧ fieldN w ≠ 0x0#4
  | .groupE, w => fieldOp w = 0xE#4 ∧ fieldKK w ∉ [0x9E#8, 0xA1#8]
  | .groupF, w => fieldOp w = 0xF#4 ∧
      fieldKK w ∉ [0x07#8, 0x0A#8, 0x15#8, 0x18#8, 0x1E#8, 0x29#8, 0x33#8, 0x55#8, 0x65#8]

/-- The op nibble of a group. -/
def InvalidGroup.op : InvalidGroup → Nibble
  | .group5 => 0x5#4
  | .group8 => 0x8#4
  | .group9 => 0x9#4
  | .groupE => 0xE#4
  | .groupF => 0xF#4

theorem InvalidGroup.op_injective : Function.Injective InvalidGroup.op := by
  intro g g' h
  cases g <;> cases g' <;> simp [InvalidGroup.op] at h ⊢

theorem InvalidGroup.Covers.fieldOp_eq {g : InvalidGroup} {w : Word} (h : g.Covers w) :
    fieldOp w = g.op := by
  cases g with
  | group5 | group8 | group9 | groupE | groupF => obtain ⟨hop, -⟩ := h; exact hop

theorem decode0_ne_invalid (nnn : Addr12) (g : InvalidGroup) : decode0 nnn ≠ .invalid g := by
  unfold decode0
  split
  · simp
  · split <;> simp

/-- The nibbles of group 8 are those that name none of the nine operations of op 8. -/
theorem group8_nibbles : ∀ n : Nibble, n ∈ [0x8#4, 0x9#4, 0xA#4, 0xB#4, 0xC#4, 0xD#4, 0xF#4] ↔
    n ∉ [0x0#4, 0x1#4, 0x2#4, 0x3#4, 0x4#4, 0x5#4, 0x6#4, 0x7#4, 0xE#4] := by decide

theorem decode8_eq_invalid_iff (x y n : Nibble) (g : InvalidGroup) :
    decode8 x y n = .invalid g ↔
      InvalidGroup.group8 = g ∧ n ∈ [0x8#4, 0x9#4, 0xA#4, 0xB#4, 0xC#4, 0xD#4, 0xF#4] := by
  rw [group8_nibbles]
  unfold decode8
  split <;> simp_all

theorem decodeE_eq_invalid_iff (x : Nibble) (kk : Byte) (g : InvalidGroup) :
    decodeE x kk = .invalid g ↔ InvalidGroup.groupE = g ∧ kk ∉ [0x9E#8, 0xA1#8] := by
  unfold decodeE
  split <;> simp_all

theorem decodeF_eq_invalid_iff (x : Nibble) (kk : Byte) (g : InvalidGroup) :
    decodeF x kk = .invalid g ↔ InvalidGroup.groupF = g ∧
      kk ∉ [0x07#8, 0x0A#8, 0x15#8, 0x18#8, 0x1E#8, 0x29#8, 0x33#8, 0x55#8, 0x65#8] := by
  unfold decodeF
  split <;> simp_all

theorem nibble_eq_last : ∀ op : Nibble, (∀ k < 15, op ≠ BitVec.ofNat 4 k) → op = 0xF#4 := by decide

theorem decode_eq_invalid_iff (w : Word) (g : InvalidGroup) : decode w = .invalid g ↔ g.Covers w := by
  unfold decode
  split
  case h_1 hop =>
    cases g <;> simp [InvalidGroup.Covers, hop, decode0_ne_invalid]
  case h_2 hop | h_3 hop | h_4 hop | h_5 hop | h_7 hop | h_8 hop | h_11 hop | h_12 hop | h_13 hop
      | h_14 hop =>
    cases g <;> simp [InvalidGroup.Covers, hop]
  case h_6 hop | h_10 hop =>
    by_cases hn : fieldN w = 0x0#4 <;> cases g <;> simp [InvalidGroup.Covers, hop, hn]
  case h_9 hop =>
    rw [decode8_eq_invalid_iff]
    cases g <;> simp [InvalidGroup.Covers, hop]
  case h_15 hop =>
    rw [decodeE_eq_invalid_iff]
    cases g <;> simp [InvalidGroup.Covers, hop]
  case h_16 =>
    have hop : fieldOp w = 0xF#4 := by
      refine nibble_eq_last _ fun k hk => ?_
      interval_cases k <;> assumption
    rw [decodeF_eq_invalid_iff]
    cases g <;> simp [InvalidGroup.Covers, hop]

theorem decode_valid_of_op (w : Word)
    (h : fieldOp w ∈ [0x0#4, 0x1#4, 0x2#4, 0x3#4, 0x4#4, 0x6#4, 0x7#4, 0xA#4, 0xB#4, 0xC#4, 0xD#4]) :
    ∃ i : Instr, decode w = .instr i := by
  cases hd : decode w with
  | instr i => exact ⟨i, rfl⟩
  | invalid g =>
    have covered := (decode_eq_invalid_iff w g).mp hd
    rw [covered.fieldOp_eq] at h
    cases g <;> simp [InvalidGroup.op] at h

/-! ### How many words are INVALID (R95)

Among the 4096 words of an `op` with a group, the low bits decide: a word is valid when its low nibble
(5, 8, 9) or its low byte (E, F) is in a list, and those bits run through all their values over and over. -/

theorem isInvalid_iff_covers {w : Word} {g : InvalidGroup} (hop : fieldOp w = g.op) :
    (decode w).isInvalid = true ↔ g.Covers w := by
  cases hd : decode w with
  | instr i => simp [← decode_eq_invalid_iff, hd]
  | invalid g' =>
    have covered := (decode_eq_invalid_iff w g').mp hd
    have same : g' = g := InvalidGroup.op_injective (covered.fieldOp_eq.symm.trans hop)
    simpa [same] using covered

theorem fieldN_layoutA_ofNat (op : Nibble) (k : Nat) :
    fieldN (layoutA op (BitVec.ofNat 12 k)) = BitVec.ofNat 4 k := by
  apply BitVec.eq_of_getLsbD_eq
  intro i hi
  rw [fieldN_getLsbD _ _ hi, layoutA_getLsbD, if_pos (by omega), BitVec.getLsbD_ofNat,
    BitVec.getLsbD_ofNat]
  simp [hi, show i < 12 by omega]

theorem fieldKK_layoutA_ofNat (op : Nibble) (k : Nat) :
    fieldKK (layoutA op (BitVec.ofNat 12 k)) = BitVec.ofNat 8 k := by
  apply BitVec.eq_of_getLsbD_eq
  intro i hi
  rw [fieldKK_getLsbD _ _ hi, layoutA_getLsbD, if_pos (by omega), BitVec.getLsbD_ofNat,
    BitVec.getLsbD_ofNat]
  simp [hi, show i < 12 by omega]

theorem countP_range_mul_of_periodic {p : Nat → Bool} {b : Nat} (hp : Function.Periodic p b) (a : Nat) :
    (List.range (a * b)).countP p = a * (List.range b).countP p := by
  induction a with
  | zero => simp
  | succ a ih =>
    have shifted : (p ∘ (a * b + ·)) = p := funext fun k => by
      rw [Function.comp_apply, Nat.add_comm]
      exact hp.nat_mul a k
    rw [Nat.succ_mul, List.range_add, List.countP_append, List.countP_map, shifted, ih, Nat.succ_mul]

/-- Of all n-bit values, those in a list without repetition are as many as its length. -/
theorem countP_ofNat_mem {n : Nat} {l : List (BitVec n)} (hl : l.Nodup) :
    (List.range (2 ^ n)).countP (fun k => decide (BitVec.ofNat n k ∈ l)) = l.length := by
  have values : (l.map BitVec.toNat).Nodup := hl.map fun _ _ => BitVec.eq_of_toNat_eq
  have same : ((List.range (2 ^ n)).filter fun k => decide (BitVec.ofNat n k ∈ l)).Perm
      (l.map BitVec.toNat) := by
    refine (List.perm_ext_iff_of_nodup (List.nodup_range.filter _) values).mpr fun k => ?_
    simp only [List.mem_filter, List.mem_range, decide_eq_true_eq, List.mem_map]
    constructor
    · rintro ⟨hk, hmem⟩
      exact ⟨_, hmem, Nat.mod_eq_of_lt hk⟩
    · rintro ⟨v, hv, rfl⟩
      exact ⟨v.isLt, by simpa using hv⟩
  rw [List.countP_eq_length_filter, same.length_eq, List.length_map]

theorem countP_ofNat_notMem {n : Nat} {l : List (BitVec n)} (hl : l.Nodup) :
    (List.range (2 ^ n)).countP (fun k => decide (BitVec.ofNat n k ∉ l)) = 2 ^ n - l.length := by
  have h := List.length_eq_countP_add_countP (l := List.range (2 ^ n))
    (p := fun k => decide (BitVec.ofNat n k ∈ l))
  rw [List.length_range, countP_ofNat_mem hl] at h
  simp only [decide_eq_true_eq] at h
  omega

namespace Machine

/-- The count of the `op` of a group that covers the words whose low n bits are not in a list. -/
theorem invalidCount_of_lowBits {g : InvalidGroup} {n : Nat} {l : List (BitVec n)} (hn : n ≤ 12)
    (hl : l.Nodup)
    (h : ∀ k, g.Covers (layoutA g.op (BitVec.ofNat 12 k)) ↔ BitVec.ofNat n k ∉ l) :
    invalidCount g.op = 2 ^ (12 - n) * (2 ^ n - l.length) := by
  have lowBits : (fun k => (decode (layoutA g.op (BitVec.ofNat 12 k))).isInvalid) =
      fun k => decide (BitVec.ofNat n k ∉ l) := by
    funext k
    rw [Bool.eq_iff_iff, isInvalid_iff_covers (fieldOp_layoutA _ _), h, decide_eq_true_iff]
  have periodic : Function.Periodic (fun k => decide (BitVec.ofNat n k ∉ l)) (2 ^ n) := fun k => by
    have wraps : BitVec.ofNat n (k + 2 ^ n) = BitVec.ofNat n k := BitVec.eq_of_toNat_eq (by simp)
    simp only [wraps]
  have size : 4096 = 2 ^ (12 - n) * 2 ^ n := by rw [← Nat.pow_add, Nat.sub_add_cancel hn]
  rw [invalidCount, lowBits, size, countP_range_mul_of_periodic periodic, countP_ofNat_notMem hl]

theorem invalidCount_5 : invalidCount 0x5#4 = 3840 :=
  invalidCount_of_lowBits (g := .group5) (l := [0x0#4]) (by decide) (by decide) fun k => by
    simp [InvalidGroup.Covers, InvalidGroup.op, fieldN_layoutA_ofNat]

theorem invalidCount_8 : invalidCount 0x8#4 = 1792 :=
  invalidCount_of_lowBits (g := .group8)
    (l := [0x0#4, 0x1#4, 0x2#4, 0x3#4, 0x4#4, 0x5#4, 0x6#4, 0x7#4, 0xE#4])
    (by decide) (by decide) fun k => by
    rw [← group8_nibbles]
    simp [InvalidGroup.Covers, InvalidGroup.op, fieldN_layoutA_ofNat]

theorem invalidCount_9 : invalidCount 0x9#4 = 3840 :=
  invalidCount_of_lowBits (g := .group9) (l := [0x0#4]) (by decide) (by decide) fun k => by
    simp [InvalidGroup.Covers, InvalidGroup.op, fieldN_layoutA_ofNat]

theorem invalidCount_E : invalidCount 0xE#4 = 4064 :=
  invalidCount_of_lowBits (g := .groupE) (l := [0x9E#8, 0xA1#8]) (by decide) (by decide) fun k => by
    simp [InvalidGroup.Covers, InvalidGroup.op, fieldKK_layoutA_ofNat]

theorem invalidCount_F : invalidCount 0xF#4 = 3952 :=
  invalidCount_of_lowBits (g := .groupF)
    (l := [0x07#8, 0x0A#8, 0x15#8, 0x18#8, 0x1E#8, 0x29#8, 0x33#8, 0x55#8, 0x65#8])
    (by decide) (by decide) fun k => by
    simp [InvalidGroup.Covers, InvalidGroup.op, fieldKK_layoutA_ofNat]

theorem invalidCount_eq_zero {op : Nibble}
    (h : op ∈ [0x0#4, 0x1#4, 0x2#4, 0x3#4, 0x4#4, 0x6#4, 0x7#4, 0xA#4, 0xB#4, 0xC#4, 0xD#4]) :
    invalidCount op = 0 := by
  refine List.countP_eq_zero.mpr fun k _ => ?_
  obtain ⟨i, hi⟩ := decode_valid_of_op (layoutA op (BitVec.ofNat 12 k)) (by rwa [fieldOp_layoutA])
  simp [hi]

theorem invalidCounts :
    ((List.range 16).map fun op => invalidCount (BitVec.ofNat 4 op)) =
      [0, 0, 0, 0, 0, 3840, 0, 0, 1792, 3840, 0, 0, 0, 0, 4064, 3952] := by
  simp [List.range_succ, invalidCount_5, invalidCount_8, invalidCount_9, invalidCount_E, invalidCount_F,
    invalidCount_eq_zero]

theorem validCount_eq (op : Nibble) : validCount op = 4096 - invalidCount op :=
  Nat.eq_sub_of_add_eq (validCount_add_invalidCount op)

theorem validCounts_eq_map :
    ((List.range 16).map fun op => validCount (BitVec.ofNat 4 op)) =
      ((List.range 16).map fun op => invalidCount (BitVec.ofNat 4 op)).map (4096 - ·) := by
  simp [validCount_eq]

/-- Settles O4: the groups are `InvalidGroup.Covers` (`decode_eq_invalid_iff`), and the counts come
from `invalidCount_of_lowBits`. -/
theorem invalidWordsAreExactlyTheGroups : Obligations.InvalidWordsAreExactlyTheGroups := by
  have groups := decode_eq_invalid_iff
  refine ⟨fun w => ⟨groups w .group5, groups w .group8, groups w .group9, groups w .groupE,
    groups w .groupF⟩, decode_valid_of_op, invalidCount_5, invalidCount_8, invalidCount_9,
    invalidCount_E, invalidCount_F, ?_, ?_⟩
  · rw [invalidCounts]; decide
  · rw [validCounts_eq_map, invalidCounts]; decide

end Machine

/-! ### The opcode map (R94) -/

theorem OpcodeRow.matchesWord_iff (r : OpcodeRow) (w : Word) :
    r.matchesWord w = true ↔ w &&& r.mask = r.pattern := beq_iff_eq

theorem row_mem_opcodeMap (i : Instr) : i.row ∈ opcodeMap := by
  cases i <;> simp [Instr.row, opcodeMap]

/-- The family `Laws.RowMatch`, over all instructions. -/
theorem row_matches_encode (i : Instr) : i.row.matchesWord (encode i) = true := by
  cases i
  exacts [RowMatch.cls, RowMatch.ret, RowMatch.sys _, RowMatch.jp _, RowMatch.call _, RowMatch.seImm _ _,
    RowMatch.sneImm _ _, RowMatch.seReg _ _, RowMatch.ldImm _ _, RowMatch.addImm _ _, RowMatch.ldReg _ _,
    RowMatch.orReg _ _, RowMatch.andReg _ _, RowMatch.xorReg _ _, RowMatch.addReg _ _, RowMatch.sub _ _,
    RowMatch.shr _ _, RowMatch.subn _ _, RowMatch.shl _ _, RowMatch.sneReg _ _, RowMatch.ldI _,
    RowMatch.jpV0 _, RowMatch.rnd _ _, RowMatch.drw _ _ _, RowMatch.skp _, RowMatch.sknp _,
    RowMatch.ldVxDt _, RowMatch.ldVxK _, RowMatch.ldDtVx _, RowMatch.ldStVx _, RowMatch.addIVx _,
    RowMatch.ldFVx _, RowMatch.ldBVx _, RowMatch.ldMemVx _, RowMatch.ldVxMem _]

theorem row_matches_of_decode {w : Word} {i : Instr} (h : decode w = .instr i) :
    i.row.matchesWord w = true := by
  rw [← encode_of_decode h]
  exact row_matches_encode i

/-- The row of what the decoder reads, none for an INVALID word. -/
def Decoded.row? : Decoded → Option OpcodeRow
  | .instr i => some i.row
  | .invalid _ => none

theorem pattern_row? : ∀ r ∈ opcodeMap, (decode r.pattern).row? = some r := by decide

theorem decode_pattern {r : OpcodeRow} (hr : r ∈ opcodeMap) :
    ∃ i : Instr, decode r.pattern = .instr i ∧ i.row = r := by
  have h := pattern_row? r hr
  cases hd : decode r.pattern with
  | instr i => exact ⟨i, rfl, by simpa [hd, Decoded.row?] using h⟩
  | invalid g => simp [hd, Decoded.row?] at h

/-- Two rows that match one word agree on the bits both masks keep. -/
theorem patterns_agree {r q : OpcodeRow} {w : Word} (hr : r.matchesWord w = true)
    (hq : q.matchesWord w = true) : r.pattern &&& q.mask = q.pattern &&& r.mask := by
  rw [OpcodeRow.matchesWord_iff] at hr hq
  rw [← hr, ← hq]
  ac_rfl

/-- The only rows of the map that agree so are SYS and a row of a single word. -/
theorem eq_of_patterns_agree : ∀ r ∈ opcodeMap, ∀ q ∈ opcodeMap,
    r.pattern &&& q.mask = q.pattern &&& r.mask →
      r = q ∨ r.mask = 0xFFFF#16 ∨ (r = ⟨0x0000#16, 0xF000#16⟩ ∧ q.mask = 0xFFFF#16) := by
  decide

theorem eq_pattern_of_matches {r : OpcodeRow} {w : Word} (hmask : r.mask = 0xFFFF#16)
    (h : r.matchesWord w = true) : w = r.pattern := by
  rw [OpcodeRow.matchesWord_iff, hmask] at h
  rw [← h]
  exact BitVec.and_allOnes.symm

theorem cls_or_ret_of_mask {i : Instr} (h : i.row.mask = 0xFFFF#16) : i = .cls ∨ i = .ret := by
  cases i <;> simp [Instr.row] at h ⊢

theorem matching_row_unique {w : Word} {i : Instr} {r : OpcodeRow} (hd : decode w = .instr i)
    (hr : r ∈ opcodeMap) (hm : r.matchesWord w = true) :
    r = i.row ∨ (r = ⟨0x0000#16, 0xF000#16⟩ ∧ (i = .cls ∨ i = .ret)) := by
  have agree := patterns_agree hm (row_matches_of_decode hd)
  obtain h | hmask | ⟨rfl, hmask⟩ := eq_of_patterns_agree r hr i.row (row_mem_opcodeMap i) agree
  · exact .inl h
  · obtain ⟨j, hj, rfl⟩ := decode_pattern hr
    rw [eq_pattern_of_matches hmask hm, hj] at hd
    cases hd
    exact .inl rfl
  · exact .inr ⟨rfl, cls_or_ret_of_mask hmask⟩

/-- Every row fixes the fields by which the groups of its `op` are told apart. -/
theorem masks_keep_deciding_fields : ∀ r ∈ opcodeMap, fieldOp r.mask = 0xF#4 ∧
    (fieldOp r.pattern ∈ [0x5#4, 0x8#4, 0x9#4] → fieldN r.mask = 0xF#4) ∧
    (fieldOp r.pattern ∈ [0xE#4, 0xF#4] → fieldKK r.mask = 0xFF#8) := by
  decide

/-- A field of a word that a row's mask keeps whole is that field of the row's match. -/
theorem field_eq_of_matches {start len : Nat} {r : OpcodeRow} {w : Word} (h : r.matchesWord w = true)
    (hmask : r.mask.extractLsb' start len = BitVec.allOnes len) :
    w.extractLsb' start len = r.pattern.extractLsb' start len := by
  rw [OpcodeRow.matchesWord_iff] at h
  rw [← h, BitVec.extractLsb'_and, hmask, BitVec.and_allOnes]

/-- A row that matches a word of a group of INVALID words would have its own match in that group. -/
theorem InvalidGroup.Covers.pattern {g : InvalidGroup} {r : OpcodeRow} {w : Word} (hg : g.Covers w)
    (hr : r ∈ opcodeMap) (hm : r.matchesWord w = true) : g.Covers r.pattern := by
  obtain ⟨hop, hn, hkk⟩ := masks_keep_deciding_fields r hr
  have op : fieldOp w = fieldOp r.pattern := field_eq_of_matches hm hop
  have n (h : fieldOp r.pattern ∈ [0x5#4, 0x8#4, 0x9#4]) : fieldN w = fieldN r.pattern :=
    field_eq_of_matches hm (hn h)
  have kk (h : fieldOp r.pattern ∈ [0xE#4, 0xF#4]) : fieldKK w = fieldKK r.pattern :=
    field_eq_of_matches hm (hkk h)
  cases g with
  | group5 | group8 | group9 =>
    obtain ⟨hw, field⟩ := hg
    rw [op] at hw
    exact ⟨hw, n (by simp [hw]) ▸ field⟩
  | groupE | groupF =>
    obtain ⟨hw, field⟩ := hg
    rw [op] at hw
    exact ⟨hw, kk (by simp [hw]) ▸ field⟩

theorem no_row_matches_invalid {w : Word} {g : InvalidGroup} {r : OpcodeRow}
    (hd : decode w = .invalid g) (hr : r ∈ opcodeMap) : r.matchesWord w = false := by
  by_contra hm
  have covered := (decode_eq_invalid_iff w g).mp hd
  have bad := (decode_eq_invalid_iff _ g).mpr (covered.pattern hr (by simpa using hm))
  obtain ⟨i, hi, -⟩ := decode_pattern hr
  cases hi.symm.trans bad

/-- Settles O3: the parts are `decode_pattern`, `row_matches_of_decode`, `matching_row_unique` and
`no_row_matches_invalid`. -/
theorem validWordsMatchExactlyTheirRow : Obligations.ValidWordsMatchExactlyTheirRow :=
  ⟨rfl, by decide, fun _ hr => decode_pattern hr,
    fun _ i hd => ⟨row_mem_opcodeMap i, row_matches_of_decode hd, fun _ hr hm =>
      matching_row_unique hd hr hm⟩,
    fun _ _ hd _ hr => no_row_matches_invalid hd hr⟩

end Sys2Proof

/-! ## The engine (40_engine.md R120 to R128) -/

namespace Sys2Proof.Machine

/-! ### What one event does -/

theorem step_instruction {s : State} (hr : s.run = .running) (he : s.nextEvent = .step) :
    step s = instructionStep s.dropEvent := by
  simp only [step, runEvent, hr, takeEvent, he]

theorem step_quit {s : State} (hr : s.run = .running) (he : s.nextEvent = .quit) :
    step s = .fault .runEnded := by
  simp only [step, runEvent, hr, takeEvent, he]

theorem step_halted {s : State} {r : FaultRecord} (hr : s.run = .halted r) :
    step s = .fault .halted := by
  simp only [step, runEvent, hr]

theorem instructionStep_of_fetch {s : State} {w : Word} (hw : s.fetch = some w) :
    instructionStep s = execDecoded w (decode w) s := by
  simp only [instructionStep, hw]

theorem instructionStep_of_gt {s : State} (h : 0xFFE < s.pc.toNat) :
    instructionStep s = .next (s.halt (.memOutOfBounds (s.pc.toNat + 1)) none) := by
  simp only [instructionStep, s.fetch_of_gt h]

theorem instructionStep_of_instr {s : State} {w : Word} {i : Instr} (hw : s.fetch = some w)
    (hd : decode w = .instr i) : instructionStep s = exec i s := by
  rw [instructionStep_of_fetch hw, hd, execDecoded]

theorem instructionStep_of_invalid {s : State} {w : Word} {g : InvalidGroup} (hw : s.fetch = some w)
    (hd : decode w = .invalid g) : instructionStep s = execInvalid w s := by
  rw [instructionStep_of_fetch hw, hd, execDecoded]

theorem execInvalid_abort {s : State} {w : Word} (hp : s.params.invalidOpcode = .abort) :
    execInvalid w s = raiseFault s w .invalidOpcode := by
  simp only [execInvalid, hp]

theorem execInvalid_skip {s : State} {w : Word} (hp : s.params.invalidOpcode = .skip) :
    execInvalid w s = advance s w s := by
  simp only [execInvalid, hp]

theorem State.dropEvent_of_nil {s : State} (h : s.schedule = []) : s.dropEvent = s := by
  cases s
  cases h
  rfl

/-! ### Fetch and decode -/

/-- Settles O7: taking the event off the schedule changes neither PC nor memory, so the same word is
fetched. -/
theorem stepRunsTheDecodedInstruction : Obligations.StepRunsTheDecodedInstruction := by
  intro s hr he
  have hstep := step_instruction hr he
  refine ⟨hstep, fun i hpc hd => ?_⟩
  have hexec : step s = exec i s.dropEvent :=
    hstep.trans (instructionStep_of_instr (s.dropEvent.fetch_of_le hpc) hd)
  exact ⟨hexec, fun hnil => by rw [hexec, State.dropEvent_of_nil hnil]⟩

/-- Settles O8: by policy, `execInvalid_abort` and `execInvalid_skip`. -/
theorem invalidWordFollowsThePolicy : Obligations.InvalidWordFollowsThePolicy := by
  intro s w g hw hd
  rw [instructionStep_of_invalid hw hd]
  refine ⟨fun hp => ?_, fun hp hpc => ?_, fun hp hpc => ?_⟩
  · rw [execInvalid_abort hp, raiseFault_eq]
  · rw [execInvalid_skip hp, advance_of_le s w s hpc, BitVec.ofNat_add, BitVec.ofNat_toNat,
      BitVec.setWidth_eq]
  · rw [execInvalid_skip hp, advance_of_gt s w s hpc, raiseFault_eq]

/-- Settles O9: by `instructionStep_of_gt`. -/
theorem fetchOutsideMemoryFaults : Obligations.FetchOutsideMemoryFaults :=
  fun _ h => instructionStep_of_gt h

/-! ### When the machine stops -/

theorem advance_next (s : State) (w : Word) (t : State) : ∃ u, advance s w t = .next u := by
  rcases Nat.lt_or_ge 0xFFE (s.pc.toNat + 2) with h | h
  · exact ⟨_, advance_of_gt s w t h⟩
  · exact ⟨_, advance_of_le s w t h⟩

theorem execInvalid_next (w : Word) (s : State) : ∃ t, execInvalid w s = .next t := by
  cases hp : s.params.invalidOpcode with
  | abort => exact ⟨_, execInvalid_abort hp⟩
  | skip => rw [execInvalid_skip hp]; exact advance_next s w s

/-- A STEP always answers a next state: every fault is taken. -/
theorem instructionStep_next (s : State) : ∃ t, instructionStep s = .next t := by
  rcases Nat.lt_or_ge 0xFFE s.pc.toNat with hpc | hpc
  · exact ⟨_, instructionStep_of_gt hpc⟩
  · have hw := s.fetch_of_le hpc
    cases hd : decode (wordOfBytes (s.mem.read s.pc.toNat) (s.mem.read (s.pc.toNat + 1))) with
    | instr i => rw [instructionStep_of_instr hw hd]; exact exec_next i s
    | invalid g => rw [instructionStep_of_invalid hw hd]; exact execInvalid_next _ s

theorem step_next {s : State} (hr : s.run = .running) (he : s.nextEvent ≠ .quit) :
    ∃ t, step s = .next t := by
  cases h : s.nextEvent with
  | step => rw [step_instruction hr h]; exact instructionStep_next _
  | tick => exact ⟨_, step_tick hr h⟩
  | latch ks => exact ⟨_, step_latch hr h⟩
  | quit => exact absurd h he

/-- Settles O10: by `step_halted`, `step_quit` and `step_next`, one for each kind of state. -/
theorem onlyHaltAndQuitStopTheMachine : Obligations.OnlyHaltAndQuitStopTheMachine := by
  intro s
  cases hr : s.run with
  | halted r => simp [step_halted hr, eq_comm]
  | running =>
    by_cases he : s.nextEvent = .quit
    · simp [step_quit hr he, he, eq_comm]
    · obtain ⟨t, ht⟩ := step_next hr he
      simp [ht, he]

/-! ### The next pc -/

/-- Whatever a straight-line instruction writes, its step ends at pc + 2. -/
theorem exec_of_straightLine {i : Instr} (s : State) (h : straightLine i = true) :
    ∃ u, exec i s = advance s (encode i) u := by
  cases i with
  | cls | sys _ | ldImm _ _ | addImm _ _ | ldReg _ _ | orReg _ _ | andReg _ _ | xorReg _ _
  | addReg _ _ | sub _ _ | shr _ _ | subn _ _ | shl _ _ | rnd _ _ | ldI _ | addIVx _ | ldFVx _
  | ldVxDt _ | ldDtVx _ | ldStVx _ => exact ⟨_, rfl⟩
  | ret | jp _ | call _ | jpV0 _ | seImm _ _ | sneImm _ _ | seReg _ _ | sneReg _ _ | drw _ _ _
  | skp _ | sknp _ | ldVxK _ | ldBVx _ | ldMemVx _ | ldVxMem _ => cases h

/-- Settles O21: by `exec_of_straightLine`. -/
theorem straightLineInstructionsFaultAtTheEnd : Obligations.StraightLineInstructionsFaultAtTheEnd := by
  intro i s hi hpc
  obtain ⟨u, hu⟩ := exec_of_straightLine s hi
  exact hu.trans (advance_of_gt s _ u hpc)

/-- The next pc of an effect: two or four bytes on, the same pc while Fx0A waits, or the target of a
control transfer. -/
theorem Effect.next_pc {i : Instr} {s u : State} {n : Nat} (he : Effect i s u n) :
    (n = s.pc.toNat + 2 ∨ n = s.pc.toNat + 4) ∨
    (∃ x, i = .ldVxK x ∧ s.keyTransition = none ∧ n = s.pc.toNat) ∨
    (∃ nnn : Addr12, (i = .jp nnn ∨ i = .call nnn) ∧ nnn.toNat = n) ∨
    (∃ nnn : Addr12, i = .jpV0 nnn ∧ nnn.toNat + (s.reg 0x0#4).toNat = n) ∨
    (i = .ret ∧ ∃ h : 0 < s.sp.val, (s.stack[s.sp.val - 1]).toNat = n) := by
  cases i with
  | ldVxK x =>
    obtain ⟨hk, -, hn⟩ | ⟨_, -, -, rfl⟩ := he
    · exact .inr (.inl ⟨x, rfl, hk, hn⟩)
    · exact .inl (.inl rfl)
  | jp nnn => obtain ⟨-, rfl⟩ := he; exact .inr (.inr (.inl ⟨nnn, .inl rfl, rfl⟩))
  | call nnn => obtain ⟨-, -, rfl⟩ := he; exact .inr (.inr (.inl ⟨nnn, .inr rfl, rfl⟩))
  | jpV0 nnn => obtain ⟨-, rfl⟩ := he; exact .inr (.inr (.inr (.inl ⟨nnn, rfl, rfl⟩)))
  | ret => obtain ⟨h, -, rfl⟩ := he; exact .inr (.inr (.inr (.inr ⟨rfl, h, rfl⟩)))
  | seImm _ _ | seReg _ _ => obtain ⟨-, rfl⟩ := he; exact .inl (ite_eq_or_eq _ _ _).symm
  | sneImm _ _ | sneReg _ _ => obtain ⟨-, rfl⟩ := he; exact .inl (ite_eq_or_eq _ _ _)
  | skp _ => obtain ⟨-, -, rfl⟩ := he; exact .inl (ite_eq_or_eq _ _ _).symm
  | sknp _ => obtain ⟨-, -, rfl⟩ := he; exact .inl (ite_eq_or_eq _ _ _)
  | drw _ _ _ | ldBVx _ | ldMemVx _ | ldVxMem _ => obtain ⟨-, -, rfl⟩ := he; exact .inl (.inl rfl)
  | cls | sys _ | ldImm _ _ | addImm _ _ | ldReg _ _ | orReg _ _ | andReg _ _ | xorReg _ _
  | addReg _ _ | sub _ _ | shr _ _ | subn _ _ | shl _ _ | rnd _ _ | ldI _ | addIVx _ | ldFVx _
  | ldVxDt _ | ldDtVx _ | ldStVx _ => obtain ⟨-, rfl⟩ := he; exact .inl (.inl rfl)

/-- Settles O24: the next pc is committed as it is, so of the cases of `Effect.next_pc` the first cannot
give the pc itself. -/
theorem pcStaysOnlyByWaitOrSelfJump : Obligations.PcStaysOnlyByWaitOrSelfJump := by
  intro i s t h ht hpc
  obtain ⟨k, rfl⟩ | ⟨u, n, he, hn, rfl⟩ := exec_cases h
  · simp at ht
  obtain rfl : s.pc.toNat = n := by rw [← hpc]; exact ofNat_pc_toNat n hn
  obtain hon | ⟨x, hx, hk, -⟩ | hjump | hjumpV0 | ⟨hret, hsp, hslot⟩ := he.next_pc
  · omega
  · exact .inl ⟨x, hx, s.keyTransition_eq_none.mp hk⟩
  · exact .inr (.inl hjump)
  · exact .inr (.inr (.inl hjumpV0))
  · exact .inr (.inr (.inr ⟨hret, hsp, BitVec.eq_of_toNat_eq hslot⟩))

end Sys2Proof.Machine

/-! ## A draw in closed form (41_display.md R142 to R145)

A draw visits its sprite bits of 1 one after the other, and each falls on a cell of the grid. A sprite has
at most 32 rows and 64 columns, so no cell is visited twice: every visit finds the pixel as it was before
the draw. -/

namespace Sys2Proof.Machine

/-- The cells, as row and column, on which the bits of 1 of a sprite row fall, from the left. -/
def rowCells (r c : Nat) (b : Byte) : List (Nat × Nat) :=
  ((List.range 8).filter (spriteBit b)).map fun j => (r % 32, (c + j) % 64)

/-- The cells on which the bits of 1 of a sprite fall, in the order in which they are drawn. -/
def spriteCells (r c : Nat) : List Byte → List (Nat × Nat)
  | [] => []
  | b :: bs => rowCells r c b ++ spriteCells (r + 1) c bs

/-- A sprite bit of 1 drawn on a cell. -/
def plot (p : Draw) (q : Nat × Nat) : Draw :=
  { disp := p.disp.flip q.1 q.2, collide := p.collide || p.disp.pixel q.1 q.2 }

theorem Display.flip_mod (d : Display) (r c : Nat) : d.flip (r % 32) (c % 64) = d.flip r c := by
  simp [Display.flip]

theorem drawRow_eq_foldl_plot (r c : Nat) (b : Byte) (p : Draw) :
    drawRow r c b p = (rowCells r c b).foldl plot p := by
  have pixel : drawPixel r c b =
      fun p j => if spriteBit b j = true then plot p (r % 32, (c + j) % 64) else p := by
    funext p j
    rw [drawPixel_eq, plot, Display.flip_mod, Display.pixel_mod]
  rw [drawRow, pixel, rowCells, List.foldl_map, List.foldl_filter]

theorem drawRows_eq_foldl_plot (r c : Nat) (bs : List Byte) (p : Draw) :
    drawRows r c bs p = (spriteCells r c bs).foldl plot p := by
  induction bs generalizing r p with
  | nil => rfl
  | cons b bs ih => rw [drawRows_cons, ih, drawRow_eq_foldl_plot, spriteCells, List.foldl_append]

/-! ### Which cells a sprite covers -/

theorem mem_rowCells {r c : Nat} {b : Byte} {q : Nat × Nat} :
    q ∈ rowCells r c b ↔ ∃ j < 8, spriteBit b j = true ∧ (r % 32, (c + j) % 64) = q := by
  simp [rowCells, and_assoc]

theorem mem_spriteCells {r c : Nat} {bs : List Byte} {q : Nat × Nat} :
    q ∈ spriteCells r c bs ↔ ∃ i b, bs[i]? = some b ∧ q ∈ rowCells (r + i) c b := by
  induction bs generalizing r with
  | nil => simp [spriteCells]
  | cons b bs ih =>
    rw [spriteCells, List.mem_append, ih]
    constructor
    · rintro (h | ⟨i, b', hb, h⟩)
      · exact ⟨0, b, rfl, h⟩
      · exact ⟨i + 1, b', hb, by rwa [Nat.add_right_comm] at h⟩
    · rintro ⟨_ | i, b', hb, h⟩
      · cases hb
        exact .inl h
      · exact .inr ⟨i, b', hb, by rwa [Nat.add_right_comm]⟩

theorem spriteCells_in_grid {r c : Nat} {bs : List Byte} {q : Nat × Nat} (h : q ∈ spriteCells r c bs) :
    q.1 < 32 ∧ q.2 < 64 := by
  obtain ⟨i, b, -, h⟩ := mem_spriteCells.mp h
  obtain ⟨j, -, -, rfl⟩ := mem_rowCells.mp h
  exact ⟨Nat.mod_lt _ (by decide), Nat.mod_lt _ (by decide)⟩

theorem rowCells_nodup (r c : Nat) (b : Byte) : (rowCells r c b).Nodup := by
  refine (List.nodup_range.filter _).map_on fun j hj k hk h => ?_
  simp only [List.mem_filter, List.mem_range, Prod.mk.injEq] at hj hk h
  omega

/-- A sprite of at most 32 rows covers no cell twice. -/
theorem spriteCells_nodup (r c : Nat) {bs : List Byte} (h : bs.length ≤ 32) :
    (spriteCells r c bs).Nodup := by
  induction bs generalizing r with
  | nil => exact .nil
  | cons b bs ih =>
    rw [List.length_cons] at h
    refine (rowCells_nodup r c b).append (ih _ (by omega)) fun q hrow hrest => ?_
    obtain ⟨i, b', hb, hrest⟩ := mem_spriteCells.mp hrest
    obtain ⟨hi, -⟩ := List.getElem?_eq_some_iff.mp hb
    obtain ⟨j, -, -, rfl⟩ := mem_rowCells.mp hrow
    obtain ⟨k, -, -, heq⟩ := mem_rowCells.mp hrest
    simp only [Prod.mk.injEq] at heq
    omega

/-! ### What drawing on different cells leaves -/

theorem plot_pixel {p : Draw} {q : Nat × Nat} {r c : Nat} (hq : q.1 < 32 ∧ q.2 < 64) (hr : r < 32)
    (hc : c < 64) : (plot p q).disp.pixel r c = (p.disp.pixel r c ^^ decide ((r, c) = q)) := by
  obtain ⟨h1, h2⟩ := hq
  simp only [plot, Display.pixel_flip, Nat.mod_eq_of_lt, h1, h2, hr, hc, Prod.ext_iff]

theorem foldl_plot_pixel {cells : List (Nat × Nat)} (hn : cells.Nodup)
    (hgrid : ∀ q ∈ cells, q.1 < 32 ∧ q.2 < 64) (p : Draw) {r c : Nat} (hr : r < 32) (hc : c < 64) :
    (cells.foldl plot p).disp.pixel r c = (p.disp.pixel r c ^^ decide ((r, c) ∈ cells)) := by
  induction cells generalizing p with
  | nil => simp
  | cons q cells ih =>
    obtain ⟨hq, hn⟩ := List.nodup_cons.mp hn
    obtain ⟨hgq, hgrid⟩ := List.forall_mem_cons.mp hgrid
    rw [List.foldl_cons, ih hn hgrid, plot_pixel hgq hr hc]
    by_cases h : (r, c) = q
    · simp [h, hq]
    · simp [h]

/-- Pixels other than q are still as they were once q is drawn, so each visit tells of the start. -/
theorem foldl_plot_collide {cells : List (Nat × Nat)} (hn : cells.Nodup)
    (hgrid : ∀ q ∈ cells, q.1 < 32 ∧ q.2 < 64) (p : Draw) :
    (cells.foldl plot p).collide = true ↔
      p.collide = true ∨ ∃ q ∈ cells, p.disp.pixel q.1 q.2 = true := by
  induction cells generalizing p with
  | nil => simp
  | cons q cells ih =>
    obtain ⟨hq, hn⟩ := List.nodup_cons.mp hn
    obtain ⟨hgq, hgrid⟩ := List.forall_mem_cons.mp hgrid
    have kept : ∀ q' ∈ cells, (plot p q).disp.pixel q'.1 q'.2 = p.disp.pixel q'.1 q'.2 := by
      intro q' hq'
      obtain ⟨h1, h2⟩ := hgrid q' hq'
      have hne : q' ≠ q := ne_of_mem_of_not_mem hq' hq
      simp [plot_pixel hgq h1 h2, hne]
    have rest : (∃ q' ∈ cells, (plot p q).disp.pixel q'.1 q'.2 = true) ↔
        ∃ q' ∈ cells, p.disp.pixel q'.1 q'.2 = true :=
      exists_congr fun q' => and_congr_right fun hq' => by rw [kept q' hq']
    rw [List.foldl_cons, ih hn hgrid, rest]
    simp [plot, or_assoc]

/-! ### DRW -/

/-- The cells that `DRW Vx, Vy, n` draws on in s. -/
def State.drawCells (s : State) (x y n : Nibble) : List (Nat × Nat) :=
  spriteCells (s.reg y).toNat (s.reg x).toNat (s.bytesAtI n.toNat)

/-- What `DRW Vx, Vy, n` draws in s. -/
def State.drawing (s : State) (x y n : Nibble) : Draw :=
  drawSprite s.disp (s.reg y).toNat (s.reg x).toNat (s.bytesAtI n.toNat)

theorem State.drawing_eq (s : State) (x y n : Nibble) :
    s.drawing x y n = (s.drawCells x y n).foldl plot { disp := s.disp, collide := false } :=
  drawRows_eq_foldl_plot _ _ _ _

theorem State.mem_drawCells {s : State} {x y n : Nibble} {q : Nat × Nat} :
    q ∈ s.drawCells x y n ↔ ∃ i < n.toNat, ∃ j < 8,
      (s.mem.read (s.i.toNat + i)).getLsbD (7 - j) = true ∧
        (((s.reg y).toNat + i) % 32, ((s.reg x).toNat + j) % 64) = q := by
  have byte (i : Nat) (b : Byte) :
      (s.bytesAtI n.toNat)[i]? = some b ↔ i < n.toNat ∧ s.mem.read (s.i.toNat + i) = b := by
    rw [List.getElem?_eq_some_iff]
    simp [State.bytesAtI_getElem]
  simp [State.drawCells, mem_spriteCells, mem_rowCells, byte, spriteBit, and_assoc]

theorem spriteCovers_iff {s : State} {x y n : Nibble} {r c : Nat} :
    SpriteCovers s x y n r c ↔ (r, c) ∈ s.drawCells x y n := by
  simp only [SpriteCovers, State.mem_drawCells, Prod.mk.injEq]

theorem spriteCollides_iff {s : State} {x y n : Nibble} :
    SpriteCollides s x y n ↔ ∃ q ∈ s.drawCells x y n, s.disp.pixel q.1 q.2 = true := by
  simp only [SpriteCollides, State.mem_drawCells]
  constructor
  · rintro ⟨i, hi, j, hj, hb, hp⟩
    exact ⟨_, ⟨i, hi, j, hj, hb, rfl⟩, hp⟩
  · rintro ⟨_, ⟨i, hi, j, hj, hb, rfl⟩, hp⟩
    exact ⟨i, hi, j, hj, hb, hp⟩

theorem State.drawCells_nodup (s : State) (x y n : Nibble) : (s.drawCells x y n).Nodup :=
  spriteCells_nodup _ _ (by rw [State.bytesAtI_length]; omega)

theorem State.drawing_pixel (s : State) (x y n : Nibble) {r c : Nat} (hr : r < 32) (hc : c < 64) :
    (s.drawing x y n).disp.pixel r c =
      (s.disp.pixel r c ^^ decide ((r, c) ∈ s.drawCells x y n)) := by
  rw [State.drawing_eq]
  exact foldl_plot_pixel (s.drawCells_nodup x y n) (fun _ => spriteCells_in_grid) _ hr hc

theorem State.drawing_collide_iff (s : State) (x y n : Nibble) :
    (s.drawing x y n).collide = true ↔ SpriteCollides s x y n := by
  rw [State.drawing_eq, spriteCollides_iff,
    foldl_plot_collide (s.drawCells_nodup x y n) fun _ => spriteCells_in_grid]
  simp

/-- The writes of `DRW Vx, Vy, n` in s. -/
def State.drawn (s : State) (x y n : Nibble) : State :=
  { s.setReg vf (flag (s.drawing x y n).collide) with
    disp := (s.drawing x y n).disp, redraw := true }

theorem State.drawn_vf_of_collides {s : State} {x y n : Nibble} (h : SpriteCollides s x y n) :
    (s.drawn x y n).reg vf = 1#8 := by
  rw [← s.drawing_collide_iff x y n] at h
  exact (State.reg_setReg_same s vf _).trans (congrArg flag h)

theorem State.drawn_vf_of_not_collides {s : State} {x y n : Nibble} (h : ¬SpriteCollides s x y n) :
    (s.drawn x y n).reg vf = 0#8 := by
  rw [← s.drawing_collide_iff x y n, Bool.not_eq_true] at h
  exact (State.reg_setReg_same s vf _).trans (congrArg flag h)

theorem exec_drw_of_le {x y n : Nibble} {s : State}
    (hi : n.toNat = 0 ∨ s.i.toNat + n.toNat ≤ 0x1000) :
    exec (.drw x y n) s = advance s (encode (.drw x y n)) (s.drawn x y n) :=
  withAccessAtI_of_le s _ _ _ hi

/-- Settles O43: the pixels are those of `State.drawing_pixel`, the collision is that of
`State.drawing_collide_iff`. -/
theorem drawXorsTheSpriteAndReportsCollision : Obligations.DrawXorsTheSpriteAndReportsCollision := by
  intro x y n s hi
  refine ⟨fun hpc => ?_, fun hpc => (exec_drw_of_le hi).trans (advance_of_gt _ _ _ hpc)⟩
  have pixels : ∀ r < 32, ∀ c < 64,
      (SpriteCovers s x y n r c → (s.drawing x y n).disp.pixel r c = !s.disp.pixel r c) ∧
      (¬SpriteCovers s x y n r c → (s.drawing x y n).disp.pixel r c = s.disp.pixel r c) := by
    intro r hr c hc
    rw [spriteCovers_iff, State.drawing_pixel s x y n hr hc]
    constructor <;> intro h <;> simp [h]
  exact ⟨_, ⟨(exec_drw_of_le hi).trans (advance_of_le _ _ _ hpc), ofNat_pc_toNat _ hpc, rfl, rfl⟩,
    pixels, State.drawn_vf_of_collides, State.drawn_vf_of_not_collides, rfl,
    fun r hr => State.reg_setReg_ne s vf r _ hr⟩

end Sys2Proof.Machine

/-! ## Accesses outside memory, CLS and DRW with n = 0 (20_memory.md R63, 41_display.md R140, R146) -/

namespace Sys2Proof.Machine

/-- Settles O20: each of the four instructions checks the bytes it needs before anything else, and
`withAccessAtI_of_gt` names the address of the fault. -/
theorem memoryFaultNamesTheLowestAddress : Obligations.MemoryFaultNamesTheLowestAddress := by
  intro s
  refine ⟨fun x y n hn hi => ?drw, fun x hi => ?bcd, fun x hi => ⟨?store, ?load⟩⟩
  case drw => exact withAccessAtI_of_gt s _ n.toNat _ hn hi
  case bcd => exact withAccessAtI_of_gt s _ 3 _ (by decide) hi
  case store => exact withAccessAtI_of_gt s _ (x.toNat + 1) _ x.toNat.succ_pos hi
  case load => exact withAccessAtI_of_gt s _ (x.toNat + 1) _ x.toNat.succ_pos hi

/-- Settles O29: CLS writes the clear framebuffer and goes on at pc + 2, or faults there. -/
theorem clsClearsTheDisplay : Obligations.ClsClearsTheDisplay := by
  refine fun s => ⟨fun hpc => ?_, fun hpc => advance_of_gt s _ _ hpc⟩
  have done := advance_of_le s (encode .cls) { s with disp := Display.clear, redraw := true } hpc
  exact ⟨_, ⟨done, ofNat_pc_toNat _ hpc, rfl, rfl⟩, fun r _ c _ => Display.pixel_clear r c, rfl, rfl⟩

/-- Settles O44: the case n = 0 of O43, in which the sprite covers no pixel and so collides with none. -/
theorem drawOfNoRowsReadsNothing : Obligations.DrawOfNoRowsReadsNothing := by
  intro x y s hpc
  obtain ⟨complete, -⟩ := drawXorsTheSpriteAndReportsCollision x y 0x0#4 s (.inl rfl)
  obtain ⟨t, hc, pixels, -, noCollision, hredraw, hregs⟩ := complete hpc
  have covers : ∀ r c, ¬SpriteCovers s x y 0x0#4 r c := fun r c ⟨i, hi, _⟩ => i.not_lt_zero hi
  have collides : ¬SpriteCollides s x y 0x0#4 := fun ⟨i, hi, _⟩ => i.not_lt_zero hi
  have same : t.disp = s.disp :=
    Display.ext_pixel _ _ fun r hr c hc => (pixels r hr c hc).2 (covers r c)
  exact ⟨t, hc, same, noCollision collides, hredraw, hregs⟩

/-! ### Drawing twice (R142, R143)

A draw that leaves Vx and Vy as they were finds the same cells when it is run again, so the second draw
flips back what the first one flipped. -/

theorem exec_drw_eq_drawn {x y n : Nibble} {s t : State} (h : exec (.drw x y n) s = .next t)
    (ht : t.run = .running) : ∃ p, t = { s.drawn x y n with pc := p, lastKeys := s.keys } := by
  obtain ⟨k, rfl⟩ | ⟨u, m, ⟨-, rfl, -⟩, -, rfl⟩ := exec_cases h
  · simp at ht
  · exact ⟨_, rfl⟩

theorem exec_drw_disp {x y n : Nibble} {s t : State} (h : exec (.drw x y n) s = .next t)
    (ht : t.run = .running) : t.disp = (s.drawing x y n).disp := by
  obtain ⟨p, rfl⟩ := exec_drw_eq_drawn h ht
  rfl

theorem exec_drw_vf {x y n : Nibble} {s t : State} (h : exec (.drw x y n) s = .next t)
    (ht : t.run = .running) : t.reg vf = (s.drawn x y n).reg vf := by
  obtain ⟨p, rfl⟩ := exec_drw_eq_drawn h ht
  rfl

theorem State.drawCells_congr {x y n : Nibble} {s t : State} (hx : t.reg x = s.reg x)
    (hy : t.reg y = s.reg y) (hi : t.i = s.i) (hm : t.mem = s.mem) :
    t.drawCells x y n = s.drawCells x y n := by
  simp only [State.drawCells, State.bytesAtI, State.iAddr, hx, hy, hi, hm]

theorem exec_drw_drawCells {x y n : Nibble} {s t : State} (hx : x ≠ vf) (hy : y ≠ vf)
    (h : exec (.drw x y n) s = .next t) (ht : t.run = .running) :
    t.drawCells x y n = s.drawCells x y n := by
  obtain ⟨p, rfl⟩ := exec_drw_eq_drawn h ht
  exact State.drawCells_congr (State.reg_setReg_ne s vf x _ hx) (State.reg_setReg_ne s vf y _ hy) rfl rfl

theorem not_spriteCollides_of_blank {x y n : Nibble} {s : State}
    (h : ∀ r < 32, ∀ c < 64, s.disp.pixel r c = false) : ¬SpriteCollides s x y n := by
  rintro ⟨i, -, j, -, -, hp⟩
  rw [h _ (Nat.mod_lt _ (by decide)) _ (Nat.mod_lt _ (by decide))] at hp
  cases hp

theorem exists_spriteBit_of_ne_zero {b : Byte} (h : b ≠ 0#8) : ∃ j < 8, b.getLsbD (7 - j) = true := by
  by_contra hall
  push Not at hall
  refine h (BitVec.eq_of_getLsbD_eq fun k hk => ?_)
  have bit := hall (7 - k) (by omega)
  rw [Nat.sub_sub_self (Nat.le_of_lt_succ hk)] at bit
  simpa using bit

theorem State.exists_mem_drawCells {x y n : Nibble} {s : State}
    (h : ∃ k < n.toNat, s.mem.read (s.i.toNat + k) ≠ 0#8) : ∃ q, q ∈ s.drawCells x y n := by
  obtain ⟨k, hk, hb⟩ := h
  obtain ⟨j, hj, hbit⟩ := exists_spriteBit_of_ne_zero hb
  exact ⟨_, State.mem_drawCells.mpr ⟨k, hk, j, hj, hbit, rfl⟩⟩

/-- Settles O45: the second draw is on the cells of the first (`exec_drw_drawCells`), so each pixel is
flipped twice or not at all; on a blank screen the first draw sets every pixel of its cells, and the second
one meets them set. -/
theorem drawingTwiceErases : Obligations.DrawingTwiceErases := by
  intro x y n s t u hx hy _ h ht h' hu
  have cells : t.drawCells x y n = s.drawCells x y n := exec_drw_drawCells hx hy h ht
  have first : ∀ r < 32, ∀ c < 64,
      t.disp.pixel r c = (s.disp.pixel r c ^^ decide ((r, c) ∈ s.drawCells x y n)) := by
    intro r hr c hc
    rw [exec_drw_disp h ht, State.drawing_pixel s x y n hr hc]
  refine ⟨Display.ext_pixel _ _ fun r hr c hc => ?_, fun blank sprite => ⟨?_, ?_⟩⟩
  · rw [exec_drw_disp h' hu, State.drawing_pixel t x y n hr hc, cells, first r hr c hc, Bool.xor_assoc,
      Bool.xor_self, Bool.xor_false]
  · exact (exec_drw_vf h ht).trans (State.drawn_vf_of_not_collides (not_spriteCollides_of_blank blank))
  · obtain ⟨q, hq⟩ := State.exists_mem_drawCells (x := x) (y := y) sprite
    obtain ⟨hr, hc⟩ := spriteCells_in_grid hq
    have isSet : t.disp.pixel q.1 q.2 = true := by simp [first _ hr _ hc, blank _ hr _ hc, hq]
    have collides : SpriteCollides t x y n := spriteCollides_iff.mpr ⟨q, cells ▸ hq, isSet⟩
    exact (exec_drw_vf h' hu).trans (State.drawn_vf_of_collides collides)

end Sys2Proof.Machine

/-! ## Control flow (42_control_flow.md)

Every control transfer ends in one `commit`, with the next pc its rule gives, so its two outcomes are those
of `commit`; a RET or CALL that cannot pop or push does not get there. -/

namespace Sys2Proof.Machine

theorem completes_of_commit {i : Instr} {s u : State} {n : Nat} (h : exec i s = commit s (encode i) u n)
    (hu : u.run = s.run) (hn : n ≤ 0xFFE) :
    Completes i s { u with pc := BitVec.ofNat 16 n, lastKeys := s.keys } n :=
  ⟨h.trans (commit_of_le s _ u n hn), ofNat_pc_toNat n hn, rfl, hu⟩

theorem faults_of_commit {i : Instr} {s u : State} {n : Nat} (h : exec i s = commit s (encode i) u n)
    (hn : 0xFFE < n) : Faults i s (.pcOutOfRange n) :=
  h.trans (commit_of_gt s _ u n hn)

/-- The two outcomes of an instruction that writes nothing but the next pc. -/
theorem transfer_of_commit {i : Instr} {s : State} {n : Nat} (h : exec i s = commit s (encode i) s n) :
    (n ≤ 0xFFE → ∃ t : State, Completes i s t n ∧ t = { s with pc := t.pc, lastKeys := t.lastKeys }) ∧
    (0xFFE < n → Faults i s (.pcOutOfRange n)) :=
  ⟨fun hn => ⟨_, completes_of_commit h rfl hn, rfl⟩, faults_of_commit h⟩

theorem ofNat_pcPlus2 (s : State) : BitVec.ofNat 16 s.pcPlus2 = s.pc + 2#16 := by
  simp [State.pcPlus2, BitVec.ofNat_add]

theorem exec_jp (nnn : Addr12) (s : State) :
    exec (.jp nnn) s = commit s (encode (.jp nnn)) s nnn.toNat := by
  simp only [exec, execJp, zext16_toNat]

theorem exec_jpV0 (nnn : Addr12) (s : State) :
    exec (.jpV0 nnn) s = commit s (encode (.jpV0 nnn)) s (nnn.toNat + (s.reg 0x0#4).toNat) := by
  simp only [exec, execJpV0, zext16_toNat]

theorem exec_call_of_lt (nnn : Addr12) (s : State) (h : s.sp.val < 16) :
    exec (.call nnn) s = commit s (encode (.call nnn))
      { s with stack := s.stack.set s.sp.val (s.pc + 2#16) h, sp := ⟨s.sp.val + 1, by omega⟩ }
      nnn.toNat := by
  simp only [exec, execCall, State.push_of_lt s _ h, zext16_toNat, ofNat_pcPlus2]

theorem exec_call_of_full (nnn : Addr12) (s : State) (h : s.sp.val = 16) :
    Faults (.call nnn) s .stackOverflow := by
  simp only [Faults, exec, execCall, State.push_of_full s _ h, raiseFault_eq]

/-- RET with a return address out of range on the stack. -/
theorem exec_ret_of_gt (s : State) (h : 0 < s.sp.val) (ha : 0xFFE < (s.stack[s.sp.val - 1]).toNat) :
    Faults .ret s (.pcOutOfRange (s.stack[s.sp.val - 1]).toNat) := by
  simp only [Faults, exec, execRet, State.pop_of_pos s h, commit_of_gt _ _ _ _ ha, raiseFault_eq]

theorem exec_ret_of_empty (s : State) (h : s.sp.val = 0) : Faults .ret s .stackUnderflow := by
  simp only [Faults, exec, execRet, State.pop_of_empty s h, raiseFault_eq]

/-- Settles O30: SYS is an `advance` with nothing written. -/
theorem sysIsANoOp : Obligations.SysIsANoOp := by
  intro nnn s
  refine ⟨fun hpc => ?_, straightLineInstructionsFaultAtTheEnd (.sys nnn) s rfl⟩
  rw [← ofNat_pcPlus2]
  exact advance_of_le s _ s hpc

/-- Settles O31: JP is a transfer to nnn. -/
theorem jumpGoesToItsTarget : Obligations.JumpGoesToItsTarget := by
  intro nnn s
  obtain ⟨complete, fault⟩ := transfer_of_commit (exec_jp nnn s)
  refine ⟨complete, ?_⟩
  rintro rfl
  exact fault (by decide)

/-- Settles O32: a CALL with a free slot commits its push, else it faults before any write. -/
theorem callPushesTheReturnAddress : Obligations.CallPushesTheReturnAddress := by
  intro nnn s
  refine ⟨fun hsp hn => ?_, fun hsp hn => ?_, exec_call_of_full nnn s⟩
  · exact ⟨_, completes_of_commit (exec_call_of_lt nnn s hsp) rfl hn, Vector.getElem_set_self hsp, rfl,
      fun j hj hne => Vector.getElem_set_ne hsp hj (Ne.symm hne), rfl⟩
  · subst hn
    exact faults_of_commit (exec_call_of_lt _ s hsp) (by decide)

/-- Settles O33: by the three lemmas on RET; its one write is SP, so the popped slot is kept. -/
theorem returnPopsTheStack : Obligations.ReturnPopsTheStack :=
  fun s => ⟨fun hsp ha => ⟨_, ⟨exec_ret_of_pos s hsp ha, rfl, rfl, rfl⟩, rfl, rfl⟩,
    exec_ret_of_gt s, exec_ret_of_empty s⟩

/-- Settles O35: each of the four is a `skipIf`, a transfer to pc + 4 or to pc + 2; the model tests the two
SNE conditions as the negation of the equality, hence `decide_not`. -/
theorem registerSkipsCompareAndSkip : Obligations.RegisterSkipsCompareAndSkip := by
  intro x y kk s i c hi
  have skip : exec i s = skipIf s (encode i) c := by
    rcases hi with ⟨rfl, rfl⟩ | ⟨rfl, rfl⟩ | ⟨rfl, rfl⟩ | ⟨rfl, rfl⟩
    · rfl
    · exact congrArg (skipIf s _) decide_not.symm
    · rfl
    · exact congrArg (skipIf s _) decide_not.symm
  exact transfer_of_commit skip

/-- Settles O36: JP V0 is a transfer to the unbounded sum. -/
theorem jumpV0AddsWithoutMask : Obligations.JumpV0AddsWithoutMask :=
  fun nnn s => transfer_of_commit (exec_jpV0 nnn s)

end Sys2Proof.Machine

/-! ## Registers, arithmetic and logic (43_alu.md)

Every instruction of this chapter is an `advance`, so `completes_of_commit` gives its completion and
`straightLineInstructionsFaultAtTheEnd` its fault. The completed state has the registers of its writes: what
is left is what those writes read as. -/

namespace Sys2Proof.Machine

/-! ### The values VF is given (R197 to R201) -/

theorem flag_decide (p : Prop) [Decidable p] : flag (decide p) = if p then 1#8 else 0#8 := by
  simp only [flag, decide_eq_true_eq]

theorem flag_getLsbD_toNat (v : Byte) (k : Nat) : (flag (v.getLsbD k)).toNat = v.toNat / 2 ^ k % 2 := by
  rw [← Nat.toNat_testBit, ← BitVec.getLsbD]
  cases v.getLsbD k with
  | false => rfl
  | true => rfl

theorem shrFlag_toNat (v : Byte) : (shrFlag v).toNat = v.toNat % 2 := by
  rw [shrFlag, flag_getLsbD_toNat, Nat.pow_zero, Nat.div_one]

theorem shlFlag_toNat (v : Byte) : (shlFlag v).toNat = v.toNat / 128 := by
  rw [shlFlag, flag_getLsbD_toNat]
  omega

/-! ### The flag-first instructions: SUB, SUBN, SHR and SHL (R198 to R202, R204) -/

theorem State.writeFlagAndReg_reg_dest {s : State} {x : Nibble} (f d : Byte)
    (h : x ≠ vf ∨ s.params.vfWriteOrder = .tableOrder) : (s.writeFlagAndReg x f d).reg x = d := by
  rw [State.writeFlagAndReg_reg]
  cases ho : s.params.vfWriteOrder with
  | tableOrder => exact if_pos rfl
  | flagLast =>
    have hx : x ≠ vf := by simpa [ho] using h
    exact (if_neg hx).trans (if_pos rfl)

theorem State.writeFlagAndReg_reg_vf {s : State} {x : Nibble} (f d : Byte)
    (h : x ≠ vf ∨ s.params.vfWriteOrder = .flagLast) : (s.writeFlagAndReg x f d).reg vf = f := by
  rw [State.writeFlagAndReg_reg]
  cases ho : s.params.vfWriteOrder with
  | tableOrder =>
    have hx : x ≠ vf := by simpa [ho] using h
    exact (if_neg hx.symm).trans (if_pos rfl)
  | flagLast => exact if_pos rfl

theorem State.writeFlagAndReg_reg_ne {s : State} {x r : Nibble} (f d : Byte) (hx : r ≠ x) (hf : r ≠ vf) :
    (s.writeFlagAndReg x f d).reg r = s.reg r := by
  rw [State.writeFlagAndReg_reg]
  cases s.params.vfWriteOrder with
  | tableOrder => exact (if_neg hx).trans (if_neg hf)
  | flagLast => exact (if_neg hf).trans (if_neg hx)

/-- The two outcomes of an instruction that writes the flag f and the value b by the write order. -/
theorem outcomes_of_writeFlagAndReg {i : Instr} {s : State} {x : Nibble} {f b : Byte} {d : Nat}
    (h : exec i s = advance s (encode i) (s.writeFlagAndReg x f b)) (hd : b.toNat = d) :
    (s.pc.toNat + 2 ≤ 0xFFE → ∃ t : State, Completes i s t (s.pc.toNat + 2) ∧
      (x ≠ vf → (t.reg x).toNat = d ∧ t.reg vf = f) ∧
      (x = vf → s.params.vfWriteOrder = .tableOrder → (t.reg vf).toNat = d) ∧
      (x = vf → s.params.vfWriteOrder = .flagLast → t.reg vf = f) ∧
      ∀ r, r ≠ x → r ≠ vf → t.reg r = s.reg r) ∧
    (0xFFE < s.pc.toNat + 2 → Faults i s (.pcOutOfRange (s.pc.toNat + 2))) := by
  subst hd
  refine ⟨fun hpc => ⟨_, completes_of_commit h (State.writeFlagAndReg_run s x f b) hpc, ?_⟩,
    faults_of_commit h⟩
  exact ⟨fun hx => ⟨congrArg _ (State.writeFlagAndReg_reg_dest f b (.inl hx)),
      State.writeFlagAndReg_reg_vf f b (.inl hx)⟩,
    fun hx ho => hx ▸ congrArg _ (State.writeFlagAndReg_reg_dest f b (.inr ho)),
    fun _ ho => State.writeFlagAndReg_reg_vf f b (.inr ho),
    fun _ => State.writeFlagAndReg_reg_ne f b⟩

/-- Settles O40: SUB and SUBN write the same flag and difference of their own minuend and subtrahend. -/
theorem subtractionsSetNoBorrow : Obligations.SubtractionsSetNoBorrow := by
  intro x y s i a b hi
  have sub : exec i s = advance s (encode i) (s.writeFlagAndReg x (noBorrowFlag a b) (a - b)) := by
    rcases hi with ⟨rfl, rfl, rfl⟩ | ⟨rfl, rfl, rfl⟩
    · rfl
    · rfl
  rw [noBorrowFlag, flag_decide] at sub
  refine outcomes_of_writeFlagAndReg sub ?_
  rw [BitVec.toNat_sub]
  omega

/-- Settles O41: the source is the register SHIFT_SOURCE selects, and the flag is fixed by its value. -/
theorem shiftsSetTheBitShiftedOut : Obligations.ShiftsSetTheBitShiftedOut := by
  intro x y s i v f d hv hi
  obtain rfl : v = s.reg (s.shiftReg x y) := by
    rcases hv with ⟨ho, rfl⟩ | ⟨ho, rfl⟩
    · rw [State.shiftReg, ho]
    · rw [State.shiftReg, ho]
  rcases hi with ⟨rfl, rfl, hf⟩ | ⟨rfl, rfl, hf⟩
  · obtain rfl := BitVec.eq_of_toNat_eq (hf.trans (shrFlag_toNat _).symm)
    exact outcomes_of_writeFlagAndReg rfl (by rw [BitVec.toNat_ushiftRight, Nat.shiftRight_one])
  · obtain rfl := BitVec.eq_of_toNat_eq (hf.trans (shlFlag_toNat _).symm)
    exact outcomes_of_writeFlagAndReg rfl (by rw [BitVec.toNat_shiftLeft, Nat.shiftLeft_eq, Nat.mul_comm])

/-! ### ADD Vx, Vy (R197, R204) -/

/-- Settles O39: VF is written last under both orders, so the sum is lost when x = 0xF. -/
theorem addSetsCarry : Obligations.AddSetsCarry := by
  intro x y s
  have hreg := fun r =>
    s.writeRegThenFlag_reg x r (s.reg x + s.reg y) (carryFlag (s.reg x) (s.reg y))
  refine ⟨fun hpc => ⟨_, completes_of_commit rfl rfl hpc, ?_, fun hx => ?_, fun r hx hf => ?_⟩,
    straightLineInstructionsFaultAtTheEnd (.addReg x y) s rfl⟩
  · exact ((hreg vf).trans (if_pos rfl)).trans (flag_decide _)
  · have sum := ((hreg x).trans (if_neg hx)).trans (if_pos rfl)
    exact (congrArg BitVec.toNat sum).trans (BitVec.toNat_add _ _)
  · exact ((hreg r).trans (if_neg hf)).trans (if_neg hx)

/-! ### The instructions that write Vx alone (R190 to R196, R203) -/

/-- Settles O37: each is one write of Vx. -/
theorem immediatesLoadAndAdd : Obligations.ImmediatesLoadAndAdd := by
  intro x kk s
  refine ⟨fun hpc => ⟨⟨_, completes_of_commit rfl rfl hpc, s.reg_setReg_same x kk,
      fun r hr => s.reg_setReg_ne x r kk hr⟩,
    ⟨_, completes_of_commit rfl rfl hpc, ?_, fun r hr => s.reg_setReg_ne x r _ hr⟩⟩,
    fun hpc => ⟨straightLineInstructionsFaultAtTheEnd (.ldImm x kk) s rfl hpc,
      straightLineInstructionsFaultAtTheEnd (.addImm x kk) s rfl hpc⟩⟩
  exact (congrArg BitVec.toNat (s.reg_setReg_same x _)).trans (BitVec.toNat_add _ _)

/-- Settles O38: each writes to Vx the byte whose bits its rule gives. -/
theorem copyAndLogicWriteOnlyVx : Obligations.CopyAndLogicWriteOnlyVx := by
  intro x y s i f hi
  obtain ⟨b, hb, h⟩ : ∃ b : Byte, (∀ k, b.getLsbD k = f ((s.reg x).getLsbD k) ((s.reg y).getLsbD k)) ∧
      exec i s = advance s (encode i) (s.setReg x b) := by
    rcases hi with ⟨rfl, rfl⟩ | ⟨rfl, rfl⟩ | ⟨rfl, rfl⟩ | ⟨rfl, rfl⟩
    · exact ⟨_, fun _ => rfl, rfl⟩
    · exact ⟨_, fun _ => BitVec.getLsbD_or, rfl⟩
    · exact ⟨_, fun _ => BitVec.getLsbD_and, rfl⟩
    · exact ⟨_, fun _ => BitVec.getLsbD_xor, rfl⟩
  refine ⟨fun hpc => ⟨_, completes_of_commit h rfl hpc, fun k _ => ?_,
    fun r hr => s.reg_setReg_ne x r b hr⟩, faults_of_commit h⟩
  rw [← hb k]
  exact congrArg (BitVec.getLsbD · k) (s.reg_setReg_same x b)

/-- Settles O42: the draw is a free value, so its mask by 0x00 and by 0xFF is all there is to know. -/
theorem randomByteIsMasked : Obligations.RandomByteIsMasked := by
  intro x kk s hpc
  have hx := s.reg_setReg_same x (Config.randByte s.draws &&& kk)
  refine ⟨_, completes_of_commit rfl rfl hpc, hx, ?_, ?_, rfl, fun r hr => s.reg_setReg_ne x r _ hr⟩
  · rintro rfl
    exact hx.trans BitVec.and_zero
  · rintro rfl
    exact hx.trans BitVec.and_allOnes

end Sys2Proof.Machine

/-! ## The index register and memory transfer (44_index_memory.md)

Every instruction of this chapter is an `advance` once its access, if it makes one, lies in memory, so
`completes_of_commit` and `faults_of_commit` give what it does there; an access that leaves memory is O20. What
is left is the value I takes, and what the bytes and registers that were moved read as. -/

namespace Sys2Proof.Machine

/-- Settles O46: each is one write of I, by the word whose value its rule gives. -/
theorem indexInstructionsSetI : Obligations.IndexInstructionsSetI := by
  intro x nnn s i n hi
  obtain ⟨j, hj, h⟩ : ∃ j : Word, j.toNat = n ∧ exec i s = advance s (encode i) { s with i := j } := by
    rcases hi with ⟨rfl, rfl⟩ | ⟨rfl, rfl⟩ | ⟨rfl, rfl⟩
    · exact ⟨zext16 nnn, zext16_toNat nnn, rfl⟩
    · have zext : ((s.reg x).zeroExtend 16).toNat = (s.reg x).toNat := BitVec.toNat_setWidth_of_le (by decide)
      exact ⟨s.i + (s.reg x).zeroExtend 16, by rw [BitVec.toNat_add, zext], rfl⟩
    · exact ⟨BitVec.ofNat 16 (5 * (s.reg x).toNat), Nat.mod_eq_of_lt (by omega), rfl⟩
  exact ⟨fun hpc => ⟨_, completes_of_commit h rfl hpc, hj, rfl⟩, faults_of_commit h⟩

/-! ### Accesses that lie in memory (R234, R236, R237) -/

theorem exec_ldBVx_of_le (x : Nibble) {s : State} (h : s.i.toNat + 2 ≤ 0xFFF) :
    exec (.ldBVx x) s = advance s (encode (.ldBVx x))
      { s with mem := s.mem.writeBlock s.i.toNat (decimalDigits (s.reg x)) } :=
  withAccessAtI_of_le s _ 3 _ (.inr (by omega))

theorem exec_ldMemVx_of_le {x : Nibble} {s : State} (h : s.i.toNat + x.toNat ≤ 0xFFF) :
    exec (.ldMemVx x) s = advance s (encode (.ldMemVx x))
      { s with mem := s.mem.writeBlock s.i.toNat (s.regsUpTo x) } :=
  withAccessAtI_of_le s _ (x.toNat + 1) _ (.inr (by omega))

theorem exec_ldVxMem_of_le {x : Nibble} {s : State} (h : s.i.toNat + x.toNat ≤ 0xFFF) :
    exec (.ldVxMem x) s = advance s (encode (.ldVxMem x)) { s with v := s.loadRegs x } :=
  withAccessAtI_of_le s _ (x.toNat + 1) _ (.inr (by omega))

/-! ### Fx33 -/

theorem decimalDigits_spell (b : Byte) : ∃ h z u : Byte, decimalDigits b = [h, z, u] ∧
    h.toNat ≤ 2 ∧ z.toNat ≤ 9 ∧ u.toNat ≤ 9 ∧ 100 * h.toNat + 10 * z.toNat + u.toNat = b.toNat := by
  refine ⟨_, _, _, rfl, ?_⟩
  simp only [BitVec.toNat_ofNat]
  omega

/-- Settles O47: the bytes written are the digits of `decimalDigits_spell`. -/
theorem decimalDigitsAreStored : Obligations.DecimalDigitsAreStored := by
  intro x s hm
  obtain ⟨-, outOfMemory, -⟩ := memoryFaultNamesTheLowestAddress s
  refine ⟨fun hi hpc => ?_, fun hi => outOfMemory x (by omega),
    fun hi => faults_of_commit (exec_ldBVx_of_le x hi)⟩
  have done := completes_of_commit (exec_ldBVx_of_le x hi) rfl hpc
  obtain ⟨outside, -⟩ := (storeFrame x s _).1 done.1
  refine ⟨_, done, ?_, outside, rfl⟩
  obtain ⟨h, z, u, digits, hh, hz, hu, spell⟩ := decimalDigits_spell (s.reg x)
  have stored (k : Nat) (hk : k < 3) :
      (s.mem.writeBlock s.i.toNat [h, z, u]).read (s.i.toNat + k) = [h, z, u][k] :=
    Memory.read_writeBlock_in [h, z, u] s.mem s.i.toNat k hm hk (Nat.succ_le_succ hi)
  rw [digits]
  exact ⟨_, _, _, hh, hz, hu, spell, congrArg _ (stored 0 (by decide)),
    congrArg _ (stored 1 (by decide)), congrArg _ (stored 2 (by decide))⟩

/-! ### Fx55 and Fx65 -/

/-- Settles O48: the block written holds Vk at place k. -/
theorem registersAreStored : Obligations.RegistersAreStored := by
  intro x s hm
  obtain ⟨-, -, outOfMemory⟩ := memoryFaultNamesTheLowestAddress s
  refine ⟨fun hi hpc => ?_, fun hi => (outOfMemory x (Nat.succ_lt_succ hi)).1,
    fun hi => faults_of_commit (exec_ldMemVx_of_le hi)⟩
  have done := completes_of_commit (exec_ldMemVx_of_le hi) rfl hpc
  obtain ⟨outside, -⟩ := (storeFrame x s _).2 done.1
  refine ⟨_, done, fun k hk => ?_, outside, rfl⟩
  calc (s.mem.writeBlock s.i.toNat (s.regsUpTo x)).read (s.i.toNat + k.toNat)
    _ = (s.regsUpTo x)[k.toNat]'(by rw [State.regsUpTo_length]; omega) :=
      Memory.read_writeBlock_in _ s.mem _ _ hm _ (by rw [State.regsUpTo_length]; omega)
    _ = s.reg (BitVec.ofNat 4 k.toNat) := s.regsUpTo_getElem x _ _
    _ = s.reg k := by rw [BitVec.ofNat_toNat, BitVec.setWidth_eq]

/-- Settles O49: by `State.loadRegs_getElem`, which says what every register is after the load. -/
theorem registersAreLoaded : Obligations.RegistersAreLoaded := by
  intro x s
  obtain ⟨-, -, outOfMemory⟩ := memoryFaultNamesTheLowestAddress s
  refine ⟨fun hi hpc => ?_, fun hi => (outOfMemory x (Nat.succ_lt_succ hi)).2,
    fun hi => faults_of_commit (exec_ldVxMem_of_le hi)⟩
  have loaded (k : Nibble) := s.loadRegs_getElem x k.toNat k.isLt
  exact ⟨_, completes_of_commit (exec_ldVxMem_of_le hi) rfl hpc,
    fun k hk => (loaded k).trans (if_pos hk),
    fun k hk => (loaded k).trans (if_neg (Nat.not_le_of_lt hk)), rfl⟩

end Sys2Proof.Machine

/-! ## The keypad and the timers (45_keypad_timer.md)

Fx0A is a `commit` at its own pc or an `advance`, by what the search for a key-down transition finds; the key
skips are a `commit` once their key index is in range, and the timer moves are an `advance`. The outcomes are
those of `completes_of_commit` and `faults_of_commit`. -/

namespace Sys2Proof.Machine

/-! ### LD Vx, K (R265 to R267) -/

/-- The converse of `State.keyTransition_eq_some`: the search finds the lowest key that goes down. -/
theorem State.keyTransition_of_lowest {s : State} {k : Nat} (hk : k < 16)
    (hdown : s.keys.getLsbD k = true ∧ s.lastKeys.getLsbD k = false)
    (hlow : ∀ j < k, ¬(s.keys.getLsbD j = true ∧ s.lastKeys.getLsbD j = false)) :
    s.keyTransition = some k := by
  cases h : s.keyTransition with
  | none => exact absurd hdown (s.keyTransition_eq_none.mp h k hk)
  | some m =>
    obtain ⟨-, mKey, mLast, mLow⟩ := s.keyTransition_eq_some m h
    have hmk : ¬m < k := fun lt => hlow m lt ⟨mKey, mLast⟩
    have hkm : ¬k < m := fun lt => mLow k lt hdown
    exact congrArg some (by omega)

theorem exec_ldVxK_of_none (x : Nibble) {s : State} (h : s.keyTransition = none) :
    exec (.ldVxK x) s = commit s (encode (.ldVxK x)) s s.pc.toNat := by
  simp only [exec, execLdVxK, h]

theorem exec_ldVxK_of_some (x : Nibble) {s : State} {k : Nat} (h : s.keyTransition = some k) :
    exec (.ldVxK x) s = advance s (encode (.ldVxK x)) (s.setReg x (BitVec.ofNat 8 k)) := by
  simp only [exec, execLdVxK, h]

/-- Settles O54: the search finds no key, and Fx0A commits its own pc, or it finds the lowest one. -/
theorem keyWaitParksOrTakesTheLowestKey : Obligations.KeyWaitParksOrTakesTheLowestKey := by
  intro x s down
  refine ⟨fun hnone hpc => ?_, fun k hk hdown hlow => ?_⟩
  · have parked := exec_ldVxK_of_none x (s.keyTransition_eq_none.mpr hnone)
    rw [parked, commit_of_le s _ s _ hpc, BitVec.ofNat_toNat, BitVec.setWidth_eq]
  · have taken := exec_ldVxK_of_some x (State.keyTransition_of_lowest hk hdown hlow)
    refine ⟨fun hpc => ⟨_, completes_of_commit taken rfl hpc, ?_,
      fun r hr => s.reg_setReg_ne x r _ hr, rfl⟩, faults_of_commit taken⟩
    calc ((s.setReg x (BitVec.ofNat 8 k)).reg x).toNat
      _ = (BitVec.ofNat 8 k).toNat := congrArg _ (s.reg_setReg_same x _)
      _ = k := Nat.mod_eq_of_lt (by omega)

/-! ### SKP and SKNP (R260 to R262) -/

theorem withKeyIndex_of_le (s : State) (w : Word) {k : Byte} (go : Result) (h : k.toNat ≤ 0xF) :
    withKeyIndex s w k go = go :=
  if_neg (Nat.not_lt_of_le h)

theorem withKeyIndex_of_gt (s : State) (w : Word) {k : Byte} (go : Result) (h : 0xF < k.toNat) :
    withKeyIndex s w k go = raiseFault s w (.keyIndexOutOfRange k) :=
  if_pos h

/-- Settles O52: past the index check each is a transfer to pc + 4 or to pc + 2; the model tests the
condition of SKNP as the negation of the flag. -/
theorem keySkipsTestTheSnapshot : Obligations.KeySkipsTestTheSnapshot := by
  intro x s i pressed hi next
  have skip (hx : (s.reg x).toNat ≤ 0xF) : exec i s = commit s (encode i) s next := by
    rcases hi with ⟨rfl, rfl⟩ | ⟨rfl, rfl⟩
    · exact withKeyIndex_of_le s _ _ hx
    · refine (withKeyIndex_of_le s _ _ hx).trans (congrArg (commit s _ s) ?_)
      simp only [Bool.not_eq_true']
      rfl
  refine ⟨fun hx => (transfer_of_commit (skip hx)).1, fun hx => (transfer_of_commit (skip hx)).2,
    fun hx => ?_⟩
  rcases hi with ⟨rfl, -⟩ | ⟨rfl, -⟩
  · exact withKeyIndex_of_gt s _ _ hx
  · exact withKeyIndex_of_gt s _ _ hx

/-! ### LD Vx, DT, LD DT, Vx and LD ST, Vx (R263, R268, R269) -/

/-- Settles O53: each is one write, of Vx, DT or ST. -/
theorem timersAreReadAndSet : Obligations.TimersAreReadAndSet := by
  intro x s
  refine ⟨fun hpc => ⟨?_, ?_, ?_⟩, fun hpc => ⟨?_, ?_, ?_⟩⟩
  · exact ⟨_, completes_of_commit rfl rfl hpc, s.reg_setReg_same x s.dt,
      fun r hr => s.reg_setReg_ne x r s.dt hr, rfl⟩
  · exact ⟨_, completes_of_commit rfl rfl hpc, rfl⟩
  · exact ⟨_, completes_of_commit rfl rfl hpc, rfl⟩
  · exact straightLineInstructionsFaultAtTheEnd (.ldVxDt x) s rfl hpc
  · exact straightLineInstructionsFaultAtTheEnd (.ldDtVx x) s rfl hpc
  · exact straightLineInstructionsFaultAtTheEnd (.ldStVx x) s rfl hpc

end Sys2Proof.Machine

/-! ## Faults (60_exceptions.md R300 to R304)

An instruction leaves RUN as it was or takes one of the faults its rule lists. INVALID words and fetches are
added to it for a whole STEP: it leaves RUN as it was, or it is a halt, which writes RUN alone. -/

namespace Sys2Proof.Machine

/-- The faults instruction `i` can take in `s`, each with its condition (R300 to R302). No constructor gives
INVALID_OPCODE: it belongs to the words that are no instruction. -/
inductive MayFault (i : Instr) (s : State) : FaultKind → Prop
  | overflow (hi : ∃ nnn, i = .call nnn) (hsp : s.sp.val = 16) : MayFault i s .stackOverflow
  | underflow (hi : i = .ret) (hsp : s.sp.val = 0) : MayFault i s .stackUnderflow
  | access {a : Nat} (ha : 0xFFF < a)
      (hi : (∃ x y n, i = .drw x y n) ∨ ∃ x, i = .ldBVx x ∨ i = .ldMemVx x ∨ i = .ldVxMem x) :
      MayFault i s (.memOutOfBounds a)
  | pcRange {n : Nat} (hn : 0xFFE < n) : MayFault i s (.pcOutOfRange n)
  | keyIndex {x : Nibble} (hi : i = .skp x ∨ i = .sknp x) (hk : 0xF < (s.reg x).toNat) :
      MayFault i s (.keyIndexOutOfRange (s.reg x))

/-- `t` is how instruction `i` can leave `s`: RUN as it was, or halted by one of its faults. -/
def RunsOrFaults (i : Instr) (s t : State) : Prop :=
  t.run = s.run ∨ ∃ k, MayFault i s k ∧ t = s.halt k (some (encode i))

theorem runsOrFaults_of_commit {i : Instr} {s u t : State} {n : Nat}
    (h : commit s (encode i) u n = .next t) (hu : u.run = s.run) : RunsOrFaults i s t := by
  obtain ⟨-, rfl⟩ | ⟨hn, rfl⟩ := commit_cases h
  · exact .inl hu
  · exact .inr ⟨_, .pcRange hn, rfl⟩

theorem runsOrFaults_of_access {i : Instr} {s u t : State} {m n : Nat}
    (hi : (∃ x y n, i = .drw x y n) ∨ ∃ x, i = .ldBVx x ∨ i = .ldMemVx x ∨ i = .ldVxMem x)
    (h : withAccessAtI s (encode i) m (commit s (encode i) u n) = .next t) (hu : u.run = s.run) :
    RunsOrFaults i s t := by
  obtain ⟨-, h⟩ | ⟨-, -, rfl⟩ := withAccessAtI_cases h
  · exact runsOrFaults_of_commit h hu
  · exact .inr ⟨_, .access (by omega) hi, rfl⟩

theorem runsOrFaults_of_keyIndex {i : Instr} {s t : State} {x : Nibble} {n : Nat}
    (hi : i = .skp x ∨ i = .sknp x)
    (h : withKeyIndex s (encode i) (s.reg x) (commit s (encode i) s n) = .next t) :
    RunsOrFaults i s t := by
  obtain ⟨-, h⟩ | ⟨hk, rfl⟩ := withKeyIndex_cases h
  · exact runsOrFaults_of_commit h rfl
  · exact .inr ⟨_, .keyIndex hi hk, rfl⟩

theorem exec_runsOrFaults {i : Instr} {s t : State} (h : exec i s = .next t) : RunsOrFaults i s t := by
  cases i with
  | ret =>
    rcases Nat.eq_zero_or_pos s.sp.val with hsp | hsp
    · cases (exec_ret_of_empty s hsp).symm.trans h
      exact .inr ⟨_, .underflow rfl hsp, rfl⟩
    · simp only [exec, execRet, State.pop_of_pos s hsp] at h
      exact runsOrFaults_of_commit h rfl
  | call nnn =>
    rcases Nat.lt_or_ge s.sp.val 16 with hsp | hsp
    · exact runsOrFaults_of_commit ((exec_call_of_lt nnn s hsp).symm.trans h) rfl
    · have full : s.sp.val = 16 := by omega
      cases (exec_call_of_full nnn s full).symm.trans h
      exact .inr ⟨_, .overflow ⟨nnn, rfl⟩ full, rfl⟩
  | ldVxK x =>
    cases hk : s.keyTransition with
    | none => exact runsOrFaults_of_commit ((exec_ldVxK_of_none x hk).symm.trans h) rfl
    | some k => exact runsOrFaults_of_commit ((exec_ldVxK_of_some x hk).symm.trans h) rfl
  | drw x y n => exact runsOrFaults_of_access (.inl ⟨x, y, n, rfl⟩) h rfl
  | ldBVx x => exact runsOrFaults_of_access (.inr ⟨x, .inl rfl⟩) h rfl
  | ldMemVx x => exact runsOrFaults_of_access (.inr ⟨x, .inr (.inl rfl)⟩) h rfl
  | ldVxMem x => exact runsOrFaults_of_access (.inr ⟨x, .inr (.inr rfl)⟩) h rfl
  | skp x => exact runsOrFaults_of_keyIndex (.inl rfl) h
  | sknp x => exact runsOrFaults_of_keyIndex (.inr rfl) h
  | sub _ _ | shr _ _ | subn _ _ | shl _ _ =>
    exact runsOrFaults_of_commit h (State.writeFlagAndReg_run ..)
  | cls | sys _ | jp _ | jpV0 _ | seImm _ _ | sneImm _ _ | seReg _ _ | sneReg _ _ | ldImm _ _
  | addImm _ _ | ldReg _ _ | orReg _ _ | andReg _ _ | xorReg _ _ | addReg _ _ | rnd _ _ | ldI _
  | addIVx _ | ldFVx _ | ldVxDt _ | ldDtVx _ | ldStVx _ => exact runsOrFaults_of_commit h rfl

/-- Settles O19: by `exec_runsOrFaults`, a halted outcome is one of the instruction's faults. -/
theorem faultsHaveOnlyTheirListedCauses : Obligations.FaultsHaveOnlyTheirListedCauses := by
  intro i s t r hs h ht
  obtain hrun | ⟨k, hk, rfl⟩ := exec_runsOrFaults h
  · cases ht.symm.trans (hrun.trans hs)
  cases ht
  cases hk with
  | overflow hi hsp => exact ⟨hi, hsp⟩
  | underflow hi hsp => exact ⟨hi, hsp⟩
  | access ha hi => exact ⟨ha, hi⟩
  | pcRange hn => exact hn
  | keyIndex hi hk => exact ⟨⟨_, hi, rfl⟩, hk⟩

theorem execInvalid_run_or_halt {w : Word} {s t : State} (h : execInvalid w s = .next t) :
    t.run = s.run ∨ ∃ k, t = s.halt k (some w) := by
  obtain ⟨-, rfl⟩ | ⟨-, h⟩ := execInvalid_cases h
  · exact .inr ⟨_, rfl⟩
  · obtain ⟨-, rfl⟩ | ⟨-, rfl⟩ := commit_cases h
    · exact .inl rfl
    · exact .inr ⟨_, rfl⟩

theorem instructionStep_run_or_halt {s t : State} (h : instructionStep s = .next t) :
    t.run = s.run ∨ ∃ k w, t = s.halt k w := by
  obtain ⟨-, rfl⟩ | ⟨w, -, ⟨i, -, h⟩ | ⟨g, -, h⟩⟩ := instructionStep_cases h
  · exact .inr ⟨_, _, rfl⟩
  · exact (exec_runsOrFaults h).imp_right fun ⟨k, _, hk⟩ => ⟨k, _, hk⟩
  · exact (execInvalid_run_or_halt h).imp_right fun ⟨k, hk⟩ => ⟨k, _, hk⟩

/-- Settles O17: by `instructionStep_run_or_halt`; a halt writes RUN alone. -/
theorem faultingStepChangesOnlyRun : Obligations.FaultingStepChangesOnlyRun := by
  intro s t r hs h ht
  obtain hrun | ⟨k, w, rfl⟩ := instructionStep_run_or_halt h
  · cases ht.symm.trans (hrun.trans hs)
  · cases ht
    rfl

end Sys2Proof.Machine

/-! ## Redraw signals in a fair run (60_exceptions.md R311, R312)

The signals raised so far plus the one a set REDRAW is owed never decrease, and a tick raises the owed one. -/

namespace Sys2Proof.Machine

/-- REDRAW_SIGNAL's count once a set REDRAW has been signalled too (R311). -/
def State.signalsDue (s : State) : Nat := s.redrawSignals + s.redraw.toNat

theorem timerTick_signals (s : State) : (timerTick s).redrawSignals = s.signalsDue := by
  cases h : s.redraw <;> simp [State.signalsDue, h]

theorem timerTick_signalsDue (s : State) : (timerTick s).signalsDue = s.signalsDue :=
  timerTick_signals s

/-- An instruction may set REDRAW, and no instruction clears it or raises a signal. -/
theorem exec_signalsDue_le {i : Instr} {s t : State} (h : exec i s = .next t) :
    s.signalsDue ≤ t.signalsDue := by
  obtain ⟨u, p, l, r, hw, rfl⟩ := exec_writes h
  cases hw with
  | screen => exact Nat.add_le_add_left (Bool.toNat_le s.redraw) s.redrawSignals
  | _ => exact Nat.le_refl s.signalsDue

theorem execInvalid_signalsDue {w : Word} {s t : State} (h : execInvalid w s = .next t) :
    t.signalsDue = s.signalsDue := by
  obtain ⟨-, rfl⟩ | ⟨-, h⟩ := execInvalid_cases h
  · rfl
  · obtain ⟨-, rfl⟩ | ⟨-, rfl⟩ := commit_cases h <;> rfl

theorem instructionStep_signalsDue_le {s t : State} (h : instructionStep s = .next t) :
    s.signalsDue ≤ t.signalsDue := by
  obtain ⟨-, rfl⟩ | ⟨w, -, ⟨i, -, h⟩ | ⟨g, -, h⟩⟩ := instructionStep_cases h
  · exact Nat.le_refl s.signalsDue
  · exact exec_signalsDue_le h
  · exact (execInvalid_signalsDue h).ge

theorem step_signalsDue_le {s t : State} (h : step s = .next t) : s.signalsDue ≤ t.signalsDue := by
  obtain ⟨-, ⟨-, h⟩ | ⟨-, rfl⟩ | ⟨ks, -, rfl⟩⟩ := step_cases h
  · exact instructionStep_signalsDue_le (s := s.dropEvent) h
  · exact (timerTick_signalsDue s.dropEvent).ge
  · exact Nat.le_refl s.signalsDue

theorem step_tick_signals {s t : State} (he : s.nextEvent = .tick) (h : step s = .next t) :
    t.redrawSignals = s.signalsDue := by
  obtain ⟨running, -⟩ := step_cases h
  cases (step_tick running he).symm.trans h
  exact timerTick_signals s.dropEvent

/-- A run that has lasted n + 1 events had a state after n, and stepped from it with event n. -/
theorem runAt_succ {events : Nat → Event} {s u : State} {n : Nat}
    (h : runAt events s (n + 1) = some u) :
    ∃ t, runAt events s n = some t ∧ step { t with schedule := [events n] } = .next u := by
  simp only [runAt] at h
  split at h
  · cases h
  next t ht =>
    split at h
    next v hv => cases h; exact ⟨t, ht, hv⟩
    · cases h
    · cases h

theorem runAt_signalsDue_le {events : Nat → Event} {s t u : State} {n m : Nat} (hnm : n ≤ m)
    (ht : runAt events s n = some t) (hu : runAt events s m = some u) :
    t.signalsDue ≤ u.signalsDue := by
  induction m, hnm using Nat.le_induction generalizing u with
  | base =>
    cases ht.symm.trans hu
    exact Nat.le_refl t.signalsDue
  | succ m _ ih =>
    obtain ⟨v, hv, hstep⟩ := runAt_succ hu
    exact (ih hv).trans (step_signalsDue_le (s := { v with schedule := [events m] }) hstep)

/-- Settles O60: fairness gives a tick at or after n, and that tick raises the signal due since n. -/
theorem fairInfiniteRunsSignalEveryRedraw : Obligations.FairInfiniteRunsSignalEveryRedraw := by
  intro events s t n hfair hrun ht hredraw
  obtain ⟨m, hnm, htick⟩ := hfair.2 n
  obtain ⟨u, hu⟩ := hrun (m + 1)
  obtain ⟨v, hv, hstep⟩ := runAt_succ hu
  refine ⟨m + 1, u, Nat.lt_succ_of_le hnm, hu, ?_⟩
  calc t.redrawSignals
    _ < t.signalsDue := by simp [State.signalsDue, hredraw]
    _ ≤ v.signalsDue := runAt_signalsDue_le hnm ht hv
    _ = u.redrawSignals := (step_tick_signals (s := { v with schedule := [events m] }) htick hstep).symm

end Sys2Proof.Machine

/-! ## Programs boot rejects (60_exceptions.md R303, 70_reset_and_hazards.md R341)

`boot_of_loadable` says what boot answers for every other program. -/

namespace Sys2Proof.Machine

theorem boot_of_odd (font : Font) {program : List Byte} (hodd : program.length % 2 = 1) :
    boot font program = .error .oddLength :=
  if_pos (by omega)

theorem boot_of_tooLong (font : Font) {program : List Byte} (heven : program.length % 2 = 0)
    (hlong : 3584 < program.length) : boot font program = .error .tooLong := by
  rw [boot, if_neg (by omega), if_pos hlong]

/-- Settles O15: a program that is neither odd nor too long is loadable, and boot gives it a state. -/
theorem bootRejectsBadPrograms : Obligations.BootRejectsBadPrograms := by
  intro font program
  constructor
  · rintro ⟨e, rejected⟩
    by_contra good
    have loaded := boot_of_loadable font (program := program) (by omega) (by omega)
    cases loaded.symm.trans rejected
  · intro bad
    obtain heven | hodd := Nat.mod_two_eq_zero_or_one program.length
    · exact ⟨_, boot_of_tooLong font heven (by omega)⟩
    · exact ⟨_, boot_of_odd font hodd⟩

end Sys2Proof.Machine
